-- ==== Sys2Proof/Word.lean ====
section
/-! DEFINITION. The widths of the block's words (spec/30_encoding.md R45 to R50). Bit 0 is the least
significant bit of every word (spec/00_scope.md R7, spec/20_memory.md R34). -/

namespace Sys2Proof

/-- One byte of a host stream, of `req_data` or of `resp_data` (R49, R50). -/
abbrev Byte := BitVec 8

/-- A message nibble: `MSG_BITS` = 4 (R6, R45). -/
abbrev Msg := BitVec 4

/-- A codeword: `CODE_BITS` = 8 (R6, R45). -/
abbrev Code := BitVec 8

/-- A syndrome: `SYN_BITS` = 4 (R6, R46). -/
abbrev Syn := BitVec 4

/-- A bit position 0..7 of a codeword (R46). -/
abbrev Pos := BitVec 3

/-- The request word `REQ` = {op[1:0], data[7:0]} (R49). -/
abbrev ReqWord := BitVec 10

/-- The response word `RESP` = {data[7:0], status[1:0], syn[3:0], pos[2:0]} (R50). -/
abbrev RespWord := BitVec 17

end Sys2Proof
end

