-- ==== Sys2Proof/Machine/Types.lean ====
section
/-! DEFINITION. The types of the block's data: table actions and statuses as variants (R57: "A model must compare
the variant and never an integer sentinel"), the response, the constants, a pipeline stage, the contract violations. -/

namespace Sys2Proof

/-- The refusals at elaboration (R93): no hardware exists for such an instance. -/
inductive Violation where
  /-- "out-of-range bit index" (R61 to R65). -/
  | indexOutOfRange
  /-- "mismatched multiply dimensions" (R70). -/
  | dimensionMismatch
  /-- "`from_byte` length > 8" (R67). -/
  | fromByteLength
  /-- A dimension that is 0 (R66, R67, R69). -/
  | zeroDimension
deriving DecidableEq, Repr

/-- The decode status and the wrapper's fourth code (R59). -/
inductive Status where
  | ok | corrected | uncorrectable | illegalOp
deriving DecidableEq, Repr

/-- An entry of the syndrome table (R26, R60). Kind `11` is never produced, so there is no constructor for it (I5). -/
inductive Action where
  | ok
  | err
  | pos (p : Pos)
deriving DecidableEq, Repr

/-- The fields of a response (R50). -/
structure Resp where
  data : Byte
  status : Status
  syn : Syn
  pos : Pos
deriving DecidableEq, Repr

/-- The decoder's outputs (R47). -/
structure Decoded where
  msg : Msg
  status : Status
  syn : Syn
  pos : Pos
deriving DecidableEq, Repr

/-- The three constants the block holds (R17 items 1 to 3). -/
structure Rom where
  /-- G, 4×8, row-major (R24). -/
  g : BitVec 32
  /-- Ht, 8×4, row-major (R25). -/
  ht : BitVec 32
  /-- The syndrome table (R26). -/
  lut : Vector Action 16
deriving DecidableEq, Repr

/-- Stage k of the output pipeline (R30). -/
structure Stage where
  /-- `pv[k]`, the valid bit. -/
  pv : Bool
  /-- `pd[k]`, the response fields. -/
  pd : RespWord
deriving DecidableEq, Repr

end Sys2Proof
end

