-- ==== Sys2Proof/Machine/Flags.lean ====
section
/-! DEFINITION. The block stores no flags (R20). What it reports are the status code (R59), the action code
(R60) and the response word they stand in (R50). -/

namespace Sys2Proof

/-- The 2-bit status code (R59). -/
def Status.code : Status → BitVec 2
  | .ok => 0b00#2
  | .corrected => 0b01#2
  | .uncorrectable => 0b10#2
  | .illegalOp => 0b11#2

/-- The status a 2-bit code stands for (R59: all four codes are named). -/
def Status.ofCode (c : BitVec 2) : Status :=
  if c = 0b00#2 then .ok else if c = 0b01#2 then .corrected else if c = 0b10#2 then .uncorrectable else .illegalOp

/-- The action kind, 2 bits (R60). -/
def Action.kind : Action → BitVec 2
  | .ok => 0b00#2
  | .pos _ => 0b01#2
  | .err => 0b10#2

/-- The position field: p for a position, 0 otherwise (R60, R81). -/
def Action.position : Action → Pos
  | .ok => 0#3
  | .pos p => p
  | .err => 0#3

/-- The encoded entry `{kind, pos}`, 5 bits (R60). -/
def Action.word (a : Action) : BitVec 5 := a.kind ++ a.position

/-- The status that goes with an action: "`status = kind`" (R86, conflict C2). -/
def Action.status : Action → Status
  | .ok => .ok
  | .pos _ => .corrected
  | .err => .uncorrectable

/-- `RESP = {data, status, syn, pos}` (R50). -/
def Resp.word (r : Resp) : RespWord := r.data ++ r.status.code ++ r.syn ++ r.pos

/-- The fields of a response word: data 16:9, status 8:7, syn 6:3, pos 2:0 (R50). -/
def Resp.ofWord (w : RespWord) : Resp where
  data := w.extractLsb' 9 8
  status := Status.ofCode (w.extractLsb' 7 2)
  syn := w.extractLsb' 3 4
  pos := w.extractLsb' 0 3

end Sys2Proof
end

