-- ==== Sys2Proof/Machine/Operands.lean ====
section
/-! DEFINITION. Operand assembly: the slices of the request word (R49, R52, R53) and the host's nibble packing
(R13, R14). No operand is extended, scaled or shifted. -/

namespace Sys2Proof

/-- `req_op` = REQ[9:8] (R49). -/
def reqOp (w : ReqWord) : BitVec 2 := w.extractLsb' 8 2

/-- `req_data` = REQ[7:0] (R49): DEC's codeword (R52). -/
def reqData (w : ReqWord) : Byte := w.extractLsb' 0 8

/-- `v[3:0]` of a byte: ENC's message, LUT's syndrome (R52), the host's lower nibble (R13). -/
def lowNibble (v : Byte) : BitVec 4 := v.extractLsb' 0 4

/-- `v[7:4]` of a byte: ignored by ENC and LUT (R53), the host's upper nibble (R13). -/
def highNibble (v : Byte) : BitVec 4 := v.extractLsb' 4 4

/-- `REQ = {op, data}` (R49). -/
def reqWord (op : BitVec 2) (data : Byte) : ReqWord := op ++ data

/-- `{hi, lo}`: the host's packing of two nibbles (R14), and `{0000, n}` with hi = 0 (R90). -/
def nibbles (hi lo : BitVec 4) : Byte := hi ++ lo

end Sys2Proof
end

