-- ==== Sys2Proof/Config.lean ====
section
/-! DEFINITION. What an implementation fixes and what the spec leaves open.
`LATENCY` (R6, decision D10) is OPEN: the model takes it as the number of pipeline stages a state has, so it is
an argument of every state and of no definition; the reference value stands here. The unspecified contents of
pipeline registers (R31, R108, R109, R112) are free values: nothing constrains them. They are drawn by the clock
edge that leaves them and by the stage: edge 0 is power-up, or the reset before cycle 0, and edge c + 1 ends cycle c.
So no two values drawn in one run have the same arguments, and nothing relates one to another (log 3). -/

namespace Sys2Proof

/-- The spec's reference value of `LATENCY`: combinational (R6, D10). -/
def Config.referenceLatency : Nat := 0

/-- The value an unspecified `pd[stage]` takes at edge `edge` (R108 "`pd[k]` takes an unspecified value", R112 "else
any value", R109). No body: no proof can know it. UNVERIFIED free value, log 3. -/
opaque Config.freePd : (edge stage : Nat) → RespWord

/-- The value `pv[stage]` has after edge `edge`, before the first reset edge (R31, R109). No body. UNVERIFIED free
value, log 3. -/
opaque Config.freePv : (edge stage : Nat) → Bool

end Sys2Proof
end

