-- ==== Sys2Proof/Machine/Constants.lean ====
section
/-! DEFINITION. The block's hard-wired constants (R24 to R27) and the pipeline's contents after a reset edge
(R31, R108). -/

namespace Sys2Proof

/-- The (row, col) pairs of G's 1 bits, as R24 lists them. -/
def gOnes : List (Nat × Nat) :=
  [(0,0),(0,5),(0,6),(0,7),(1,1),(1,4),(1,6),(1,7),(2,2),(2,4),(2,5),(2,7),(3,3),(3,4),(3,5),(3,6)]

/-- The (row, col) pairs of Ht's 1 bits, as R25 lists them. -/
def htOnes : List (Nat × Nat) :=
  [(0,1),(0,2),(0,3),(1,0),(1,2),(1,3),(2,0),(2,1),(2,3),(3,0),(3,1),(3,2),(4,0),(5,1),(6,2),(7,3)]

/-- `G_FLAT` (R24). -/
def gFlat : BitVec 32 := 0x78B4D2E1#32

/-- `HT_FLAT` (R25). -/
def htFlat : BitVec 32 := 0x84217BDE#32

/-- The syndrome table in the source's order (R26). -/
def lutTable : Vector Action 16 :=
  #v[.ok, .pos 4, .pos 5, .err, .pos 6, .err, .err, .pos 3, .pos 7, .err, .err, .pos 2, .err, .pos 1, .pos 0, .err]

/-- The constants as every block has them from power-up on (R27, R109). -/
def Rom.wired : Rom := { g := gFlat, ht := htFlat, lut := lutTable }

/-- An output pipeline of `latency` stages after the reset edge `edge`: every `pv[k]` is 0 and every `pd[k]` is
unspecified (R31, R108). Stage 1 comes first. -/
def emptyPipe (edge latency : Nat) : List Stage :=
  (List.range latency).map fun k => { pv := false, pd := Config.freePd edge (k + 1) }

/-- An output pipeline after edge `edge`, where no reset edge has come yet: `pv` and `pd` are both unspecified (R31,
R109). -/
def unspecifiedPipe (edge latency : Nat) : List Stage :=
  (List.range latency).map fun k => { pv := Config.freePv edge (k + 1), pd := Config.freePd edge (k + 1) }

end Sys2Proof
end

