-- ==== Sys2Proof/Syntax.lean ====
section
/-! DEFINITION. The instructions: one constructor for each row of spec/opcode_table.json. The four wrapper
requests carry every bit of their request word, the ignored ones too (R53, R54). -/

namespace Sys2Proof

/-- A bit matrix: its dimensions and its flat row-major bits (R35). The invariant "rows*cols == data.length" is
the width of `data`. -/
structure BitMatrix where
  rows : Nat
  cols : Nat
  /-- Element (r, c) is bit `r*cols + c`. -/
  data : BitVec (rows * cols)
deriving DecidableEq, Repr

/-- What a host can ask for. -/
inductive Instr where
  /-- `ENC n`: op 00 (R79). `ignored` is `req_data[7:4]` (R53). -/
  | enc (ignored : BitVec 4) (n : Msg)
  /-- `DEC cw`: op 01 (R90). -/
  | dec (cw : Code)
  /-- `LUT s`: op 10 (R83). `ignored` is `req_data[7:4]` (R53). -/
  | lut (ignored : BitVec 4) (s : Syn)
  /-- The reserved op 11 (R54). `ignored` is the whole of `req_data`. -/
  | reserved (ignored : Byte)
  /-- A standalone `gf2_matrix_mult` evaluated on A and B (R48, R71). The column count of A and the row count of B
  are separate here, so a mismatch can be written down and is refused (R70). -/
  | gf2Matmul (a b : BitMatrix)
  /-- `ENCB b`: the host's encoding of a byte (R13, R58). -/
  | encb (b : Byte)
  /-- `DECB c0, c1`: the host's decoding of two bytes (R14, R58). -/
  | decb (c0 c1 : Code)
deriving DecidableEq, Repr

end Sys2Proof
end

