-- ==== Sys2Proof/Machine/State.lean ====
section
/-! DEFINITION. The state of the machine: the block's own state (R17: the constants and the output pipeline), what
its outputs last showed, the standalone product unit's port, the fault record (R96), and the host that drives the
block (R13, R14, R49), as plain data. -/

namespace Sys2Proof.Machine

/-- The response outputs a host can read besides `resp_valid` (R50). -/
inductive RespField where
  | data | status | syn | pos
deriving DecidableEq, Repr

/-- The model faults of R96. Both are RECORDED in `State.faults` and the machine goes on (R54, R92); no step ends
in one. -/
inductive Fault where
  /-- A transaction with `req_op` = 11; raised by the meaning of the reserved op. Safe: recording it only makes
  claims of a clean run unprovable, and the response is the one R54 fixes. -/
  | illegalOp
  /-- A read of the named output in a cycle where `resp_valid` = 0 (R114); raised by the fetch of a host cycle.
  Safe: no value is given. -/
  | readUnspecified (field : RespField)
deriving DecidableEq, Repr

/-- Why the model gives no meaning. -/
inductive Refusal where
  /-- An instruction whose meaning is not written yet; only exec's arms answer it. Safe. -/
  | notModelled (mnemonic : String)
  /-- A contract violation (R93): no such instance is built. Raised by the fetch, before anything of a run with such
  an instance runs (R98), and by the standalone product. Safe: the spec gives such an instance no hardware. -/
  | contractViolation (v : Violation)
deriving DecidableEq, Repr

/-- One recorded fault and the cycle that caused it (R96). -/
structure FaultRecord where
  fault : Fault
  cycle : Nat
deriving DecidableEq, Repr

/-- What the host does with a response when it takes it (R13, R14). -/
inductive Dest where
  /-- Only looks at it. -/
  | plain
  /-- Emits its data byte (ENCB). -/
  | emit
  /-- Keeps its nibble as the lower one (DECB's first response). -/
  | low
  /-- Packs its nibble above the kept one and emits the byte (DECB's second response). -/
  | high
deriving DecidableEq, Repr

/-- The levels on the wrapper's inputs during one cycle (R49), and the response outputs the host reads in it. -/
structure HostCycle where
  rst : Bool
  reqValid : Bool
  req : ReqWord
  reads : List RespField
deriving DecidableEq, Repr

/-- What the host does next. -/
inductive HostEvent where
  /-- One cycle (or, with `LATENCY` = 0, one evaluation) of the wrapper, given at its pins. -/
  | cycle (c : HostCycle)
  /-- One instruction, given as such: a standalone product, a pseudo-instruction, or a request. -/
  | instr (i : Instr)
deriving DecidableEq, Repr

/-- The host's variables (R13, R14, R40; spec/95 section 3 "the host's variables"). -/
structure HostSide where
  /-- Requests accepted and not yet answered, oldest first: what to do with each response. Responses come in request
  order (R40). -/
  awaiting : List Dest
  /-- DECB's first nibble. -/
  held : Msg
  /-- The byte stream the host emits. -/
  emitted : List Byte
  /-- Every response taken, oldest first. -/
  received : List Resp
deriving DecidableEq, Repr

/-- The whole state, between two cycles. `LATENCY` is the number of pipeline stages. -/
structure State where
  /-- G, Ht and LUT (R17 items 1 to 3). -/
  rom : Rom
  /-- The output pipeline, stage 1 first; empty when `LATENCY` = 0 (R17 item 4, R30). -/
  pipe : List Stage
  /-- `false` from power-up until the first reset edge of a block that has a pipeline: `pv`, `pd` and `resp_valid` are
  unspecified (R109), and so are the response fields (R114). -/
  resetSeen : Bool
  /-- The level of `resp_valid` in the cycle just run (R50), or as reset or power-up left it before any. -/
  respValid : Bool
  /-- What the response fields showed in the cycle just run; `none` where they were unspecified: `resp_valid` was 0, or
  no reset edge had come (R50, R114). -/
  outputs : Option Resp
  /-- Port `p` of the standalone `gf2_matrix_mult` last evaluated, whatever its size (DESIGN CHOICE, log 18); `none`
  before any (R48). -/
  product : Option BitMatrix
  /-- The host's variables. -/
  host : HostSide
  /-- What the host does in the cycles to come. -/
  script : List HostEvent
  /-- The fault record (R96), oldest first. -/
  faults : List FaultRecord
  /-- The number of the coming cycle. -/
  cycle : Nat
deriving DecidableEq, Repr

/-- `LATENCY` (R6): the number of stages of the output pipeline (R30). -/
def State.latency (s : State) : Nat := s.pipe.length

/-- The machine right after reset, for a given `LATENCY` (R31). `resp_valid` is 0: stage L holds `pv[L]` = 0, or no
request is presented. The host has done nothing yet (DESIGN CHOICE, log 4). -/
def State.resetAt (latency : Nat) : State where
  rom := Rom.wired
  pipe := emptyPipe 0 latency
  resetSeen := true
  respValid := false
  outputs := none
  product := none
  host := { awaiting := [], held := 0, emitted := [], received := [] }
  script := []
  faults := []
  cycle := 0

/-- The machine right after reset, at the spec's reference `LATENCY` (R6, R31). -/
def State.reset : State := State.resetAt Config.referenceLatency

/-- The machine at power-up (R109): the constants hold; a pipeline's contents are unspecified until the first reset
edge, and so is `resp_valid`, which shows `pv[L]`; without a pipeline nothing needs initialising (R110). -/
def State.powerUp (latency : Nat) : State :=
  { State.resetAt latency with
    pipe := unspecifiedPipe 0 latency
    resetSeen := latency == 0
    respValid := latency != 0 && Config.freePv 0 latency }

end Sys2Proof.Machine
end

