-- ==== Sys2Proof/Machine/Ops.lean ====
section
/-! DEFINITION. The shared operations: the host's taking of a response, one cycle of the wrapper with or without a
request (R111, R112), the reset edge (R108), and the fault record (R96). The block takes no exceptions and has no
return from one (R92, R99, R100), so there is no such operation. -/

namespace Sys2Proof.Machine

/-- The host notes what to do with the response of a request it presents. -/
def HostSide.expect (d : Option Dest) (h : HostSide) : HostSide := { h with awaiting := h.awaiting ++ d.toList }

/-- What the host does with a response, by its destination (R13, R14). -/
def HostSide.deliver (d : Dest) (r : Resp) (h : HostSide) : HostSide :=
  match d with
  | .plain => h
  | .emit => { h with emitted := h.emitted ++ [r.data] }
  | .low => { h with held := lowNibble r.data }
  | .high => { h with emitted := h.emitted ++ [nibbles (lowNibble r.data) h.held] }

/-- The host takes the response shown in a cycle (R113). Responses come in request order (R40), so it belongs to the
oldest request that awaits one; a host that awaits none takes none. -/
def HostSide.take (shown : Option Resp) (h : HostSide) : HostSide :=
  match shown, h.awaiting with
  | none, _ => h
  | some _, [] => h
  | some r, d :: ds => ({ h with awaiting := ds, received := h.received ++ [r] } : HostSide).deliver d r

/-- `resp_valid` during a cycle with `req_valid` at the given level: that level when there is no pipeline (R111), else
`pv[L]` (R112), which is unspecified before the first reset edge (R109). -/
def respValid (s : State) (reqValid : Bool) : Bool :=
  match s.pipe.getLast? with
  | none => reqValid
  | some st => st.pv

/-- `RESP` during a cycle, where it is specified (R114): F's answer at once when there is no pipeline (R111), else
stage L while `resp_valid` = 1 (R112), and never before the first reset edge. -/
def shownWord (s : State) (answer : Option RespWord) : Option RespWord :=
  match s.pipe.getLast? with
  | none => answer
  | some st => if s.resetSeen && st.pv then some st.pd else none

/-- The same, as response fields. -/
def shown (s : State) (answer : Option RespWord) : Option Resp := (shownWord s answer).map Resp.ofWord

/-- What enters stage 1 at edge `edge`: the answer, or an invalid stage with any data (R112). -/
def inputStage (edge : Nat) : Option RespWord → Stage
  | some w => { pv := true, pd := w }
  | none => { pv := false, pd := Config.freePd edge 1 }

/-- All stages move at once; stage L leaves; with no stages nothing is held (R112). -/
def shiftPipe (pipe : List Stage) (st : Stage) : List Stage := (st :: pipe).dropLast

/-- The pipeline after an edge with `rst` = 0 (R112). Until the first reset edge `pv` and `pd` stay unspecified, as
R109 says; R112's shift is among what the free values allow (DEDUCED, log 7). -/
def nextPipe (s : State) (answer : Option RespWord) : List Stage :=
  if s.resetSeen then shiftPipe s.pipe (inputStage (s.cycle + 1) answer)
  else unspecifiedPipe (s.cycle + 1) s.pipe.length

/-- One cycle with `rst` = 0 (R111, R112): `answer` is F's response to the request presented, and where the host
wants it; `none` when `req_valid` = 0. -/
def advance (answer : Option (RespWord × Dest)) (s : State) : State :=
  let out := shown s (answer.map Prod.fst)
  { s with
    pipe := nextPipe s (answer.map Prod.fst)
    respValid := respValid s answer.isSome
    outputs := out
    host := (s.host.expect (answer.map Prod.snd)).take out
    cycle := s.cycle + 1 }

/-- A cycle in which the wrapper accepts a request whose response is `r`. -/
def transact (r : Resp) (d : Dest) (s : State) : State := advance (some (r.word, d)) s

/-- A cycle in which no request is presented. -/
def idleCycle (s : State) : State := advance none s

/-- A cycle that ends in an edge with `rst` = 1 (R108): the outputs still show stage L during it; then every valid
bit is 0, the data are unspecified, and every response in flight is discarded, so the host awaits none. -/
def resetCycle (s : State) : State :=
  let out := shown s none
  { s with
    pipe := emptyPipe (s.cycle + 1) s.pipe.length
    resetSeen := true
    respValid := respValid s false
    outputs := out
    host := { s.host.take out with awaiting := [] }
    cycle := s.cycle + 1 }

/-- A fault recorded against the coming cycle (R96). -/
def recordFault (f : Fault) (s : State) : State := { s with faults := s.faults ++ [{ fault := f, cycle := s.cycle }] }

/-- Whether the response fields carry specified values in a cycle: `resp_valid` = 1, and a reset edge has come where
there is a pipeline (R114). -/
def fieldsSpecified (s : State) (reqValid : Bool) : Bool :=
  (s.pipe.isEmpty || s.resetSeen) && respValid s reqValid

/-- The host's reads in a cycle: each read of a response field that carries no specified value is a fault (R96,
R114). -/
def recordReads (c : HostCycle) (s : State) : State :=
  if fieldsSpecified s c.reqValid then s
  else { s with faults := s.faults ++ c.reads.map fun f => { fault := .readUnspecified f, cycle := s.cycle } }

end Sys2Proof.Machine
end

