-- ==== Sys2Proof/Machine/Gf2.lean ====
section
/-! DEFINITION. The GF(2) primitives (spec/40_gf2_primitives.md) and the matrix product
(spec/41_gf2_matrix_mult.md). Each primitive has a wired form, which the units use, and a form ending in `?` that
makes the contract check of R93 first and is refused where the check fails. -/

namespace Sys2Proof

/-- `bv_get` (R61). -/
def bvGet {n : Nat} (v : BitVec n) (i : Nat) : Bool := v.getLsbD i

/-- `bv_set` (R62). -/
def bvSet {n : Nat} (v : BitVec n) (i : Nat) : BitVec n := v ||| BitVec.twoPow n i

/-- `bv_clr` (R63). -/
def bvClr {n : Nat} (v : BitVec n) (i : Nat) : BitVec n := v &&& ~~~BitVec.twoPow n i

/-- `bv_xor` (R64). -/
def bvXor {n : Nat} (v : BitVec n) (i : Nat) (bit : Bool) : BitVec n :=
  v ^^^ (if bit then BitVec.twoPow n i else 0#n)

/-- The flat index of element (r, c) of a matrix with C columns (R35, R65). -/
def flatIndex (C r c : Nat) : Nat := r * C + c

/-- `bm_get` (R65). -/
def bmGet {R C : Nat} (m : BitVec (R * C)) (r c : Nat) : Bool := bvGet m (flatIndex C r c)

/-- `bm_set` (R65). -/
def bmSet {R C : Nat} (m : BitVec (R * C)) (r c : Nat) : BitVec (R * C) := bvSet m (flatIndex C r c)

/-- `bm_clr` (R65). -/
def bmClr {R C : Nat} (m : BitVec (R * C)) (r c : Nat) : BitVec (R * C) := bvClr m (flatIndex C r c)

/-- `bm_xor` (R65). -/
def bmXor {R C : Nat} (m : BitVec (R * C)) (r c : Nat) (bit : Bool) : BitVec (R * C) :=
  bvXor m (flatIndex C r c) bit

/-- `bm_create`: all bits zero (R66). -/
def bmCreate (R C : Nat) : BitVec (R * C) := 0#(R * C)

/-- `from_byte`: bit i of the row vector is bit i of the value (R67). -/
def fromByte (value : Byte) (length : Nat) : BitVec (1 * length) :=
  (List.range length).foldl (fun m i => if bvGet value i then bmSet m 0 i else m) (bmCreate 1 length)

/-- `to_byte`: the first min(C, 8) bits of row 0; the rest is 0 (R68). -/
def toByte {R C : Nat} (m : BitVec (R * C)) : Byte :=
  (List.range (min C 8)).foldl (fun out i => if bmGet m 0 i then bvSet out i else out) 0#8

/-- `MATMUL` (R71): XOR-accumulate into an all-zero product, in the order of the rule's loops. -/
def matmul (rows inner cols : Nat) (a : BitVec (rows * inner)) (b : BitVec (inner * cols)) :
    BitVec (rows * cols) :=
  (List.range rows).foldl
    (fun p r =>
      (List.range cols).foldl
        (fun p c => (List.range inner).foldl (fun p i => bmXor p r c (bmGet a r i && bmGet b i c)) p)
        p)
    (bmCreate rows cols)

/-- The software's byte image of a bit vector: ceil(n/8) bytes, bit 8j + t at position t of byte j (R34), the last
byte's spare bits 0 (R36). -/
def byteImage {n : Nat} (v : BitVec n) : List Byte :=
  (List.range ((n + 7) / 8)).map fun j => v.extractLsb' (8 * j) 8

/-! ### The checked forms (R93) -/

/-- `i < v.length`, else `refuse IndexOutOfRange`. -/
def checkIndex (n i : Nat) : Except Violation Unit := if i < n then .ok () else .error .indexOutOfRange

/-- `r < R` and `c < C`, else `refuse IndexOutOfRange`: the stricter check of R65 (D15). -/
def checkElement (R C r c : Nat) : Except Violation Unit :=
  if r < R ∧ c < C then .ok () else .error .indexOutOfRange

/-- R61 with its check. -/
def bvGet? {n : Nat} (v : BitVec n) (i : Nat) : Except Violation Bool :=
  (checkIndex n i).map fun _ => bvGet v i

/-- R62 with its check. -/
def bvSet? {n : Nat} (v : BitVec n) (i : Nat) : Except Violation (BitVec n) :=
  (checkIndex n i).map fun _ => bvSet v i

/-- R63 with its check. -/
def bvClr? {n : Nat} (v : BitVec n) (i : Nat) : Except Violation (BitVec n) :=
  (checkIndex n i).map fun _ => bvClr v i

/-- R64 with its check. -/
def bvXor? {n : Nat} (v : BitVec n) (i : Nat) (bit : Bool) : Except Violation (BitVec n) :=
  (checkIndex n i).map fun _ => bvXor v i bit

/-- R65 (get) with its check. -/
def bmGet? {R C : Nat} (m : BitVec (R * C)) (r c : Nat) : Except Violation Bool :=
  (checkElement R C r c).map fun _ => bmGet m r c

/-- R65 (set) with its check. -/
def bmSet? {R C : Nat} (m : BitVec (R * C)) (r c : Nat) : Except Violation (BitVec (R * C)) :=
  (checkElement R C r c).map fun _ => bmSet m r c

/-- R65 (clear) with its check. -/
def bmClr? {R C : Nat} (m : BitVec (R * C)) (r c : Nat) : Except Violation (BitVec (R * C)) :=
  (checkElement R C r c).map fun _ => bmClr m r c

/-- R65 (xor) with its check. -/
def bmXor? {R C : Nat} (m : BitVec (R * C)) (r c : Nat) (bit : Bool) : Except Violation (BitVec (R * C)) :=
  (checkElement R C r c).map fun _ => bmXor m r c bit

/-- R66 with its check. -/
def bmCreate? (R C : Nat) : Except Violation (BitVec (R * C)) :=
  if R = 0 ∨ C = 0 then .error .zeroDimension else .ok (bmCreate R C)

/-- R67 with its checks, and with every access it wires checked. Length 0 is `ZeroDimension`, as R93's table and
spec/95 section 2.1 name it (DEDUCED, log 9). -/
def fromByte? (value : Byte) (length : Nat) : Except Violation (BitVec (1 * length)) :=
  if length = 0 then .error .zeroDimension
  else if 8 < length then .error .fromByteLength
  else (List.range length).foldlM
    (fun m i => do
      let bit ← bvGet? value i
      let m' ← bmSet? m 0 i
      .ok (if bit then m' else m))
    (bmCreate 1 length)

/-- R68 with every access it wires checked. -/
def toByte? {R C : Nat} (m : BitVec (R * C)) : Except Violation Byte :=
  (List.range (min C 8)).foldlM
    (fun out i => do
      let bit ← bmGet? m 0 i
      let out' ← bvSet? out i
      .ok (if bit then out' else out))
    0#8

/-- R71 with R69's check, and with every access it wires checked. One `inner` serves both operands (R70). -/
def matmulWired? (rows inner cols : Nat) (a : BitVec (rows * inner)) (b : BitVec (inner * cols)) :
    Except Violation (BitVec (rows * cols)) :=
  if rows = 0 ∨ inner = 0 ∨ cols = 0 then .error .zeroDimension
  else (List.range rows).foldlM
    (fun p r =>
      (List.range cols).foldlM
        (fun p c =>
          (List.range inner).foldlM
            (fun p i => do
              let x ← bmGet? a r i
              let y ← bmGet? b i c
              bmXor? p r c (x && y))
            p)
        p)
    (bmCreate rows cols)

/-- What is wrong with a product of A and B, if anything (R69, R70). A zero dimension is named before a mismatch
(DESIGN CHOICE, log 9: the spec orders no two refusals). -/
def matmulDefect (a b : BitMatrix) : Option Violation :=
  if a.rows = 0 ∨ a.cols = 0 ∨ b.rows = 0 ∨ b.cols = 0 then some .zeroDimension
  else if a.cols ≠ b.rows then some .dimensionMismatch
  else none

/-- The standalone product with the checks of R69 and R70: `ROWS × COLS` is A's rows by B's columns. -/
def matmul? (a b : BitMatrix) : Except Violation BitMatrix :=
  match matmulDefect a b with
  | some v => .error v
  | none => .ok { rows := a.rows, cols := b.cols, data := matmul a.rows a.cols b.cols a.data (b.data.setWidth _) }

end Sys2Proof
end

