-- ==== Sys2Proof/Machine/Units.lean ====
section
/-! DEFINITION. The three fixed units over the block's constants: `hamming_84_encoder` (R76), `syndrome_lut`
(R81) and `hamming_84_decoder` (R84), and the response of each op (R54, R79, R83, R90, R107). -/

namespace Sys2Proof

/-- `ENCODE(msg)` (R76), through `U_ENC_MM` (R73). -/
def encodeUnit (rom : Rom) (msg : Msg) : Code :=
  let m := fromByte (msg.setWidth 8) 4
  let c := matmul 1 4 8 m rom.g
  toByte (R := 1) (C := 8) c

/-- `LUT[syn]` (R81). -/
def lookup (rom : Rom) (syn : Syn) : Action := rom.lut[syn.toNat]'syn.isLt

/-- The syndrome of a received codeword (R84), through `U_SYN_MM` (R74). -/
def syndrome (rom : Rom) (code : Code) : Syn :=
  let c := fromByte code 8
  let e := matmul 1 8 4 c rom.ht
  lowNibble (toByte (R := 1) (C := 4) e)

/-- The codeword after the correction an action asks for (R84, R87). -/
def correct (code : Code) : Action → Code
  | .pos q => toByte (R := 1) (C := 8) (bmXor (R := 1) (C := 8) (fromByte code 8) 0 q.toNat true)
  | .ok => toByte (R := 1) (C := 8) (fromByte code 8)
  | .err => toByte (R := 1) (C := 8) (fromByte code 8)

/-- `DECODE(code)` (R84). -/
def decodeUnit (rom : Rom) (code : Code) : Decoded :=
  let s := syndrome rom code
  let a := lookup rom s
  { msg := lowNibble (correct code a), status := a.status, syn := s, pos := a.position }

/-! ### The units with every contract check of R93 made: dimensions, lengths, and each wired index -/

/-- `ENCODE` (R76), checked. -/
def encodeUnit? (rom : Rom) (msg : Msg) : Except Violation Code := do
  let m ← fromByte? (msg.setWidth 8) 4
  let c ← matmulWired? 1 4 8 m rom.g
  toByte? (R := 1) (C := 8) c

/-- The syndrome (R84), checked. -/
def syndrome? (rom : Rom) (code : Code) : Except Violation Syn := do
  let c ← fromByte? code 8
  let e ← matmulWired? 1 8 4 c rom.ht
  (toByte? (R := 1) (C := 4) e).map lowNibble

/-- The correction (R87), checked: the flip's index is the one that a run decides. -/
def correct? (code : Code) (action : Action) : Except Violation Code := do
  let c ← fromByte? code 8
  match action with
  | .pos q => do
    let c' ← bmXor? (R := 1) (C := 8) c 0 q.toNat true
    toByte? (R := 1) (C := 8) c'
  | .ok => toByte? (R := 1) (C := 8) c
  | .err => toByte? (R := 1) (C := 8) c

/-- `DECODE` (R84), checked. -/
def decodeUnit? (rom : Rom) (code : Code) : Except Violation Decoded := do
  let s ← syndrome? rom code
  let a := lookup rom s
  let c ← correct? code a
  .ok { msg := lowNibble c, status := a.status, syn := s, pos := a.position }

/-! ### The responses -/

/-- ENC's response (R79). -/
def encResp (rom : Rom) (n : Msg) : Resp := { data := encodeUnit rom n, status := .ok, syn := 0, pos := 0 }

/-- DEC's response (R90). -/
def decResp (rom : Rom) (cw : Code) : Resp :=
  let d := decodeUnit rom cw
  { data := nibbles 0 d.msg, status := d.status, syn := d.syn, pos := d.pos }

/-- LUT's response (R83). -/
def lutResp (rom : Rom) (s : Syn) : Resp :=
  let a := lookup rom s
  { data := 0, status := a.status, syn := s, pos := a.position }

/-- The reserved op's response (R54). -/
def reservedResp : Resp := { data := 0, status := .illegalOp, syn := 0, pos := 0 }

/-- The response function `F` of R107, from request word to response word. -/
def respFn (rom : Rom) (req : ReqWord) : RespWord :=
  if reqOp req = 0b00#2 then (encResp rom (lowNibble (reqData req))).word
  else if reqOp req = 0b01#2 then (decResp rom (reqData req)).word
  else if reqOp req = 0b10#2 then (lutResp rom (lowNibble (reqData req))).word
  else reservedResp.word

end Sys2Proof
end

