-- ==== Sys2Proof/Machine/HostUse.lean ====
section
/-! DEFINITION. The meanings of the two pseudo-instructions: the host's two requests, presented one after the
other, and what it does with their responses when they are shown (R13, R14, R58). -/

namespace Sys2Proof.Machine

/-- ENCB b: ENC of the lower nibble, then ENC of the upper one; each codeword is emitted as its response is shown. -/
def execEncb (b : Byte) (s : State) : Host.Outcome State Fault Refusal :=
  .next (transact (encResp s.rom (highNibble b)) .emit (transact (encResp s.rom (lowNibble b)) .emit s))

/-- DECB c0, c1: DEC of each; the byte {msg(c1), msg(c0)} is emitted as the second response is shown. -/
def execDecb (c0 c1 : Code) (s : State) : Host.Outcome State Fault Refusal :=
  .next (transact (decResp s.rom c1) .high (transact (decResp s.rom c0) .low s))

end Sys2Proof.Machine
end

