-- ==== Sys2Proof/Machine/Requests.lean ====
section
/-! DEFINITION. The meanings of the wrapper's four requests (R54, R79, R83, R90). -/

namespace Sys2Proof.Machine

/-- ENC (R79); the ignored bits do not matter (R53). -/
def execEnc (_ignored : BitVec 4) (n : Msg) (s : State) : Host.Outcome State Fault Refusal :=
  .next (transact (encResp s.rom n) .plain s)

/-- DEC (R90). -/
def execDec (cw : Code) (s : State) : Host.Outcome State Fault Refusal :=
  .next (transact (decResp s.rom cw) .plain s)

/-- LUT (R83); the ignored bits do not matter (R53). -/
def execLut (_ignored : BitVec 4) (syn : Syn) (s : State) : Host.Outcome State Fault Refusal :=
  .next (transact (lutResp s.rom syn) .plain s)

/-- The reserved op (R54): the fault ILLEGAL_OP is recorded (R96) and the hardware answers with status 11. -/
def execReserved (_ignored : Byte) (s : State) : Host.Outcome State Fault Refusal :=
  .next (transact reservedResp .plain (recordFault .illegalOp s))

end Sys2Proof.Machine
end

