-- ==== Sys2Proof/Machine/Standalone.lean ====
section
/-! DEFINITION. The meaning of a standalone `gf2_matrix_mult` (R48, R69 to R71). -/

namespace Sys2Proof.Machine

/-- GF2_MATMUL: port `p` shows the product; the wrapper sees nothing of it (R42, R104). Each event brings its own
dimensions, as an instance elaborated for it would have them, and all show on one port (DESIGN CHOICE, log 18). An
instance that violates a contract is refused (R93); in a run the fetch refuses it before anything runs (R98). -/
def execGf2Matmul (a b : BitMatrix) (s : State) : Host.Outcome State Fault Refusal :=
  match matmul? a b with
  | .ok p => .next { s with product := some p }
  | .error v => .refused (.contractViolation v)

end Sys2Proof.Machine
end

