-- ==== Sys2Proof/Machine/Dispatch.lean ====
section
/-! DEFINITION. One arm for each instruction. -/

namespace Sys2Proof.Machine

def exec (i : Instr) (s : State) : Host.Outcome State Fault Refusal :=
  match i with
  | .enc ignored n => Sys2Proof.Machine.execEnc ignored n s
  | .dec cw => Sys2Proof.Machine.execDec cw s
  | .lut ignored syn => Sys2Proof.Machine.execLut ignored syn s
  | .reserved ignored => Sys2Proof.Machine.execReserved ignored s
  | .gf2Matmul a b => Sys2Proof.Machine.execGf2Matmul a b s
  | .encb b => Sys2Proof.Machine.execEncb b s
  | .decb c0 c1 => Sys2Proof.Machine.execDecb c0 c1 s

end Sys2Proof.Machine
end

