-- ==== Sys2Proof/WellFormed.lean ====
section
/-! DEFINITION. Which instructions are free of contract violations (R93). -/

namespace Sys2Proof

/-- What is wrong with an instruction, if anything. Every wrapper request and both pseudo-instructions are legal
on every operand (R55, R76, R81, R90); only a standalone product can violate a contract. -/
def Instr.defect : Instr → Option Violation
  | .enc _ _ => none
  | .dec _ => none
  | .lut _ _ => none
  | .reserved _ => none
  | .gf2Matmul a b => matmulDefect a b
  | .encb _ => none
  | .decb _ _ => none

/-- An instruction without a contract violation. -/
abbrev Instr.WellFormed (i : Instr) : Prop := i.defect = none

end Sys2Proof
end

