-- ==== Sys2Proof/Decode.lean ====
section
/-! DEFINITION. The op decode (R51, R55), its bytes, and the encoder (R51, R58). -/

namespace Sys2Proof

/-- The op map of R51: total, every one of the 1024 request words is exactly one instruction (R55). -/
def decode (w : ReqWord) : Instr :=
  if reqOp w = 0b00#2 then .enc (highNibble (reqData w)) (lowNibble (reqData w))
  else if reqOp w = 0b01#2 then .dec (reqData w)
  else if reqOp w = 0b10#2 then .lut (highNibble (reqData w)) (lowNibble (reqData w))
  else .reserved (reqData w)

/-- Why a string of bytes is no request word. -/
inductive DecodeError where
  /-- A request has one fixed length of 10 bits (R56): two bytes hold it. -/
  | notTwoBytes
  /-- A bit above bit 9 is set; the request has no such bit (R49). -/
  | bitAboveRequest
deriving DecidableEq, Repr

/-- The bytes of a request word, least significant first (log 8: bytes are the model's, the block has none, R37). -/
def requestBytes (w : ReqWord) : List Byte := [w.extractLsb' 0 8, (w.extractLsb' 8 2).setWidth 8]

/-- Decoding of any bytes, rejecting by name what is not one request word. -/
def decodeBytes : List Byte → Except DecodeError Instr
  | [b0, b1] =>
    if b1.extractLsb' 2 6 = 0#6 then .ok (decode (reqWord (b1.extractLsb' 0 2) b0)) else .error .bitAboveRequest
  | _ => .error .notTwoBytes

/-- The request words of an instruction. A pseudo-instruction is its expansion (R58); a standalone product has
no op code (R51) and so no request word. -/
def encode : Instr → List ReqWord
  | .enc ignored n => [reqWord 0b00#2 (nibbles ignored n)]
  | .dec cw => [reqWord 0b01#2 cw]
  | .lut ignored s => [reqWord 0b10#2 (nibbles ignored s)]
  | .reserved ignored => [reqWord 0b11#2 ignored]
  | .gf2Matmul _ _ => []
  | .encb b => [reqWord 0b00#2 (nibbles 0#4 (lowNibble b)), reqWord 0b00#2 (nibbles 0#4 (highNibble b))]
  | .decb c0 c1 => [reqWord 0b01#2 c0, reqWord 0b01#2 c1]

/-- The `n` low bytes of a number, least significant first. -/
def layBytes (n v : Nat) : List Byte := (List.range n).map fun k => BitVec.ofNat 8 (v >>> (8 * k))

/-- The instruction of the opcode table's word `w` of `nbits` bits: its bytes (two at least) given to the decoder. -/
def decodeTableWord (nbits w : Nat) : Option Instr :=
  (decodeBytes (layBytes (max 2 ((nbits + 7) / 8)) (w % 2 ^ nbits))).toOption

end Sys2Proof
end

