-- ==== Sys2Proof/Machine/Fetch.lean ====
section
/-! DEFINITION. What the next step does: the block has no program counter and fetches nothing (R19); the host
presents requests, and its next event says which. An instance that a run asks for and that violates a contract is
refused at elaboration, before any of its events runs (R93, R98). -/

namespace Sys2Proof.Machine

/-- What the host's next event comes to. -/
inductive Fetched where
  /-- A refusal at elaboration. -/
  | refused (v : Violation)
  /-- A cycle without a request. -/
  | idle (s : State)
  /-- A cycle that ends in a reset edge. -/
  | reset (s : State)
  /-- An instruction to run. -/
  | run (i : Instr) (s : State)
deriving DecidableEq, Repr

/-- What is wrong with the instance that an event asks for, if anything. The wrapper's own instances violate no
contract (R93's last column). -/
def HostEvent.defect : HostEvent → Option Violation
  | .cycle _ => none
  | .instr i => i.defect

/-- What is wrong with the instances that a script asks for, if anything: the first violation (the spec orders no two
refusals: DESIGN CHOICE, log 9). -/
def scriptDefect (script : List HostEvent) : Option Violation := script.findSome? HostEvent.defect

/-- Take the host's next event, unless elaboration refuses an instance that the script asks for: that comes before
anything runs (R98 item 1), whichever event needs the instance (DEDUCED, log 19). An exhausted host presents nothing. `rst` is there only when `LATENCY` > 0 (R49,
R108; with `LATENCY` = 0 it is ignored: DEDUCED, log 6), and it wins over a request (R98). While `req_valid` = 0 the
request word is ignored (R49). -/
def fetch (s : State) : Fetched :=
  match scriptDefect s.script with
  | some v => .refused v
  | none =>
    match s.script with
    | [] => .idle s
    | .instr i :: rest => .run i { s with script := rest }
    | .cycle c :: rest =>
      let s' := recordReads c { s with script := rest }
      if c.rst && !s.pipe.isEmpty then .reset s'
      else if c.reqValid then .run (decode c.req) s'
      else .idle s'

/-- A cycle that presents one request, with no reset and no read. -/
def presentCycle (w : ReqWord) : HostCycle := { rst := false, reqValid := true, req := w, reads := [] }

/-- The host presents the request word `w` next. -/
def State.present (w : ReqWord) (s : State) : State := { s with script := .cycle (presentCycle w) :: s.script }

end Sys2Proof.Machine
end

