-- ==== Sys2Proof/Machine/Step.lean ====
section
/-! DEFINITION. One step: the host's next event, run, or the refusal at elaboration. -/

namespace Sys2Proof.Machine

/-- One step of the machine. -/
def step (s : State) : Host.Outcome State Fault Refusal :=
  match fetch s with
  | .refused v => .refused (.contractViolation v)
  | .idle s' => .next (idleCycle s')
  | .reset s' => .next (resetCycle s')
  | .run i s' => exec i s'

/-- `s` with the opcode table's word `w` of `nbits` bits on the request inputs of the coming cycle. -/
def State.withFetchWord (s : State) (nbits w : Nat) : State := s.present (BitVec.ofNat 10 (w % 2 ^ nbits))

end Sys2Proof.Machine
end

