-- ==== Sys2Proof/Machine/Assembler.lean ====
section
/-! DEFINITION. The written form of transactions and responses (R58). Text is a list of characters. The spec does
not say how blanks separate the parts, nor the case of hexadecimal digits: blanks are spaces and tabs, both cases
are read, responses are written in upper case as spec/95 writes them (DESIGN CHOICE, log 10). -/

namespace Sys2Proof

/-- Why an assembler refuses a line. -/
inductive AsmError where
  | unknownMnemonic
  | wrongOperandCount
  | badImmediate
  /-- "An assembler refuses an operand outside its range" (R58). -/
  | outOfRange
deriving DecidableEq, Repr

/-- A digit's value in a base, if it is one. -/
def digitValue (base : Nat) (c : Char) : Option Nat :=
  let v :=
    if '0' ≤ c ∧ c ≤ '9' then c.toNat - 48
    else if 'a' ≤ c ∧ c ≤ 'f' then c.toNat - 87
    else if 'A' ≤ c ∧ c ≤ 'F' then c.toNat - 55
    else base
  if v < base then some v else none

/-- The number that digits spell, most significant first. -/
def number (base acc : Nat) : List Char → Option Nat
  | [] => some acc
  | c :: cs =>
    match digitValue base c with
    | some v => number base (acc * base + v) cs
    | none => none

/-- "The immediate is decimal, `0x` hexadecimal or `0b` binary" (R58). -/
def immediate : List Char → Option Nat
  | [] => none
  | '0' :: 'x' :: c :: cs => number 16 0 (c :: cs)
  | '0' :: 'b' :: c :: cs => number 2 0 (c :: cs)
  | c :: cs => number 10 0 (c :: cs)

/-- Space or tab. -/
def isBlank (c : Char) : Bool := c == ' ' || c == '\t'

/-- Text without blanks at either end. -/
def trim (t : List Char) : List Char := ((t.dropWhile isBlank).reverse.dropWhile isBlank).reverse

/-- The parts between commas. -/
def splitCommas : List Char → List (List Char)
  | [] => [[]]
  | c :: cs =>
    match splitCommas cs with
    | [] => [[c]]
    | part :: parts => if c = ',' then [] :: part :: parts else (c :: part) :: parts

/-- One immediate below its bound (R58's operand ranges). -/
def operand (bound : Nat) (t : List Char) : Except AsmError Nat :=
  match immediate t with
  | none => .error .badImmediate
  | some n => if n < bound then .ok n else .error .outOfRange

/-- Exactly one operand. -/
def oneOperand (bound : Nat) : List (List Char) → Except AsmError Nat
  | [t] => operand bound t
  | _ => .error .wrongOperandCount

/-- A mnemonic and its operands (R58's two tables). -/
def assemble (mnemonic : List Char) (operands : List (List Char)) : Except AsmError Instr :=
  if mnemonic = ['E', 'N', 'C'] then (oneOperand 16 operands).map fun n => .enc 0 (BitVec.ofNat 4 n)
  else if mnemonic = ['D', 'E', 'C'] then (oneOperand 256 operands).map fun n => .dec (BitVec.ofNat 8 n)
  else if mnemonic = ['L', 'U', 'T'] then (oneOperand 16 operands).map fun n => .lut 0 (BitVec.ofNat 4 n)
  else if mnemonic = ['.', 'r', 'e', 'q'] then (oneOperand 1024 operands).map fun n => decode (BitVec.ofNat 10 n)
  else if mnemonic = ['E', 'N', 'C', 'B'] then (oneOperand 256 operands).map fun n => .encb (BitVec.ofNat 8 n)
  else if mnemonic = ['D', 'E', 'C', 'B'] then
    match operands with
    | [t0, t1] => do
      let c0 ← operand 256 t0
      let c1 ← operand 256 t1
      .ok (.decb (BitVec.ofNat 8 c0) (BitVec.ofNat 8 c1))
    | _ => .error .wrongOperandCount
  else .error .unknownMnemonic

/-- One line: nothing, or one instruction. "Comments start with `;`" (R58). -/
def assembleLine (line : List Char) : Except AsmError (Option Instr) :=
  let text := trim (line.takeWhile (· != ';'))
  let mnemonic := text.takeWhile fun c => !isBlank c
  if text = [] then .ok none
  else (assemble mnemonic ((splitCommas (text.drop mnemonic.length)).map trim)).map some

/-- One hexadecimal digit of a nibble. -/
def hexDigit (v : BitVec 4) : Char := if v.toNat < 10 then Char.ofNat (48 + v.toNat) else Char.ofNat (55 + v.toNat)

/-- The name of a status (R58, R59). -/
def statusName : Status → List Char
  | .ok => ['O', 'K']
  | .corrected => ['C', 'O', 'R', 'R', 'E', 'C', 'T', 'E', 'D']
  | .uncorrectable => ['U', 'N', 'C', 'O', 'R', 'R', 'E', 'C', 'T', 'A', 'B', 'L', 'E']
  | .illegalOp => ['I', 'L', 'L', 'E', 'G', 'A', 'L', '_', 'O', 'P']

/-- "A response is written `-> data=0x.. status=<…> syn=0x. pos=p`" (R58). -/
def writeResp (r : Resp) : List Char :=
  ['-', '>', ' ', 'd', 'a', 't', 'a', '=', '0', 'x', hexDigit (highNibble r.data), hexDigit (lowNibble r.data)]
    ++ [' ', 's', 't', 'a', 't', 'u', 's', '='] ++ statusName r.status
    ++ [' ', 's', 'y', 'n', '=', '0', 'x', hexDigit r.syn]
    ++ [' ', 'p', 'o', 's', '=', Char.ofNat (48 + r.pos.toNat)]

end Sys2Proof
end

