-- ==== Sys2Proof/Safety.lean ====
section
/-! DEFINITION. The terms claims are made in: runs without a recorded fault, final states, the invariant of
reachable states, and what it is for one cycle to answer one request. -/

namespace Sys2Proof.Machine

/-- The responses still in the pipeline, oldest (stage L) first (R112). Before the first reset edge what it holds is
unspecified, and none of it is a response (R109). -/
def State.inFlight (s : State) : List Resp :=
  if s.resetSeen then (s.pipe.reverse.filter Stage.pv).map fun st => Resp.ofWord st.pd else []

/-- No fault is recorded (R96). -/
abbrev State.NoFault (s : State) : Prop := s.faults = []

/-- The host has nothing more to do, nothing is in flight, and no fault is recorded: "A state that holds one is never
final" (R96). -/
abbrev State.Final (s : State) : Prop := s.script = [] ∧ s.inFlight = [] ∧ s.NoFault

/-- The host awaits exactly the responses in flight. -/
abbrev State.HostSync (s : State) : Prop := s.host.awaiting.length = s.inFlight.length

/-- What holds of every state after reset: the constants are the wired ones (R27), a reset edge has come (R110), and
the host awaits what is in flight (R40). -/
abbrev State.Inv (s : State) : Prop := s.rom = Rom.wired ∧ s.resetSeen = true ∧ s.HostSync

/-- The fault ILLEGAL_OP is recorded. -/
abbrev State.IllegalOpRecorded (s : State) : Prop := Fault.illegalOp ∈ s.faults.map FaultRecord.fault

/-- Every response with status ILLEGAL_OP that is taken, shown or in flight has its fault recorded (R54, R59). -/
abbrev State.IllegalStatusRecorded (s : State) : Prop :=
  ∀ r ∈ s.host.received ++ s.outputs.toList ++ s.inFlight, r.status = .illegalOp → s.IllegalOpRecorded

/-- The responses an instruction asks the wrapper for, in order (R54, R58, R79, R83, R90). -/
def answers (rom : Rom) : Instr → List Resp
  | .enc _ n => [encResp rom n]
  | .dec cw => [decResp rom cw]
  | .lut _ syn => [lutResp rom syn]
  | .reserved _ => [reservedResp]
  | .gf2Matmul _ _ => []
  | .encb b => [encResp rom (lowNibble b), encResp rom (highNibble b)]
  | .decb c0 c1 => [decResp rom c0, decResp rom c1]

/-- `k` steps, stopping at the first stop. -/
def run : Nat → State → Host.Outcome State Fault Refusal
  | 0, s => .next s
  | k + 1, s =>
    match step s with
    | .next s' => run k s'
    | .fault f => .fault f
    | .refused r => .refused r

/-- The response shown in the coming cycle if the wrapper's inputs are as given: `none` where the fields are
unspecified (R111, R112, R114). -/
def shownIn (s : State) (c : HostCycle) : Option RespWord :=
  shownWord s (if c.reqValid then some (respFn s.rom c.req) else none)

/-- Elaboration refuses no instance that the script asks for (R93, R98). -/
abbrev State.Elaborates (s : State) : Prop := scriptDefect s.script = none

/-- The coming cycle ends in a reset edge: `rst` = 1, and there is a clock (R49, R108). -/
abbrev State.ResetsIn (s : State) (c : HostCycle) : Prop := c.rst = true ∧ s.pipe ≠ []

/-- The faults R96 has the coming step record: one for each response field read while it is unspecified (R114), and
one for a transaction with `req_op` = 11. -/
def newFaults (s : State) : List FaultRecord :=
  match s.script with
  | [] => []
  | .instr (.reserved _) :: _ => [{ fault := .illegalOp, cycle := s.cycle }]
  | .instr _ :: _ => []
  | .cycle c :: _ =>
    (if shownIn s c = none then c.reads.map fun f => { fault := .readUnspecified f, cycle := s.cycle } else [])
      ++ (if c.reqValid = true ∧ reqOp c.req = 0b11#2 ∧ ¬ s.ResetsIn c
          then [{ fault := .illegalOp, cycle := s.cycle }] else [])

/-- `t` is `s` after one cycle in which the wrapper accepted one request, answered by `r`, for the host's use `d`,
and nothing else happened but for the fault record (R111, R112, R113). -/
structure Answered (s t : State) (r : Resp) (d : Dest) : Prop where
  /-- Without a pipeline the response shows at once (R111). -/
  combinational : s.pipe = [] → t.pipe = [] ∧ t.outputs = some r
  /-- With one it enters stage 1, every stage moves on, and the outputs show what stage L held (R112). -/
  pipelined : s.pipe ≠ [] → s.resetSeen = true →
    t.pipe = { pv := true, pd := r.word } :: s.pipe.dropLast ∧ t.outputs = shown s none
  /-- Before the first reset edge the pipeline is unspecified (R109) and nothing is shown (R114). -/
  unreset : s.pipe ≠ [] → s.resetSeen = false → t.pipe.length = s.pipe.length ∧ t.outputs = none
  /-- Apart from that, `resp_valid` says whether a response is shown (R111, R112). -/
  respValid : s.pipe = [] ∨ s.resetSeen = true → t.respValid = t.outputs.isSome
  /-- The host awaits one more response and takes the one shown. -/
  host : t.host = (s.host.expect (some d)).take t.outputs
  rom : t.rom = s.rom
  product : t.product = s.product
  script : t.script = s.script
  resetSeen : t.resetSeen = s.resetSeen
  cycle : t.cycle = s.cycle + 1

end Sys2Proof.Machine
end

