-- ==== Sys2Proof/Certificates/Slice0/Obligations.lean ====
section
/-! DEFINITION. The statements for the provers. Each docstring names the rule of spec/ it formalises. -/

open Sys2Proof Sys2Proof.Machine

/-! ### The constants (spec/10_state.md) -/

/-- R24, R25: the 1 bits of G and Ht are exactly the listed ones, and their flat words and rows are as given. -/
def Obligations.ConstantsHaveExactlyTheListedOnes : Prop :=
  (∀ r < 4, ∀ c < 8, bmGet (R := 4) (C := 8) Rom.wired.g r c = decide ((r, c) ∈
    [(0,0),(0,5),(0,6),(0,7),(1,1),(1,4),(1,6),(1,7),(2,2),(2,4),(2,5),(2,7),(3,3),(3,4),(3,5),(3,6)])) ∧
  (∀ r < 8, ∀ c < 4, bmGet (R := 8) (C := 4) Rom.wired.ht r c = decide ((r, c) ∈
    [(0,1),(0,2),(0,3),(1,0),(1,2),(1,3),(2,0),(2,1),(2,3),(3,0),(3,1),(3,2),(4,0),(5,1),(6,2),(7,3)])) ∧
  Rom.wired.g = 0x78B4D2E1#32 ∧ Rom.wired.ht = 0x84217BDE#32 ∧
  (List.range 4).map (fun r => Rom.wired.g.extractLsb' (8 * r) 8) = [0xE1#8, 0xD2#8, 0xB4#8, 0x78#8] ∧
  (List.range 8).map (fun r => Rom.wired.ht.extractLsb' (4 * r) 4) =
    [0xE#4, 0xD#4, 0xB#4, 0x7#4, 0x1#4, 0x2#4, 0x4#4, 0x8#4]

/-- R28, R29: the identity blocks, the parity coverage, Ht's upper block as G's parity part transposed, G·Ht = 0,
and every codeword's syndrome 0. -/
def Obligations.GeneratorAndCheckMatrixStructure : Prop :=
  let g := fun r c => bmGet (R := 4) (C := 8) Rom.wired.g r c
  let ht := fun r c => bmGet (R := 8) (C := 4) Rom.wired.ht r c
  (∀ r < 4, ∀ c < 4, g r c = decide (r = c)) ∧
  (∀ r < 4, ∀ j < 4, g r (4 + j) = decide (r ≠ j)) ∧
  (∀ r < 4, ∀ k < 4, ht (4 + r) k = decide (r = k)) ∧
  (∀ r < 4, ∀ k < 4, ht r k = g r (4 + k)) ∧
  matmul 4 8 4 Rom.wired.g Rom.wired.ht = 0#(4 * 4) ∧
  ∀ n : Msg, syndrome Rom.wired (encodeUnit Rom.wired n) = 0#4

/-- R26, R82: the table entry by entry; OK exactly at the zero syndrome; each position exactly once, at the row of Ht
it names; a position exactly at the indices with an odd number of 1 bits. -/
def Obligations.SyndromeTableEntriesAndCover : Prop :=
  (List.range 16).map (fun s => lookup Rom.wired (BitVec.ofNat 4 s)) =
    [.ok, .pos 4, .pos 5, .err, .pos 6, .err, .err, .pos 3, .pos 7, .err, .err, .pos 2, .err, .pos 1, .pos 0, .err] ∧
  (∀ s : Syn, lookup Rom.wired s = .ok ↔ s = 0#4) ∧
  (∀ (s : Syn) (p : Pos), lookup Rom.wired s = .pos p ↔ s = Rom.wired.ht.extractLsb' (4 * p.toNat) 4) ∧
  (∀ s : Syn, lookup Rom.wired s = .err ↔ s ∈ [0x3#4, 0x5#4, 0x6#4, 0x9#4, 0xA#4, 0xC#4, 0xF#4]) ∧
  ∀ s : Syn, (s.getLsbD 0 ^^ s.getLsbD 1 ^^ s.getLsbD 2 ^^ s.getLsbD 3) =
    decide ((lookup Rom.wired s).kind = 0b01#2)

/-! ### Encodings (spec/30_encoding.md) -/

/-- R50: the fields of the response word stand where the rule puts them, and a word and its fields determine each
other. -/
def Obligations.ResponseWordFieldsArePlacedAndInvertible : Prop :=
  (∀ r : Resp, r.word.extractLsb' 9 8 = r.data ∧ r.word.extractLsb' 7 2 = r.status.code ∧
    r.word.extractLsb' 3 4 = r.syn ∧ r.word.extractLsb' 0 3 = r.pos) ∧
  (∀ r : Resp, Resp.ofWord r.word = r) ∧ ∀ w : RespWord, (Resp.ofWord w).word = w

/-- R60: the action code of every action, whose kind is never 11 and is the code of the status it goes with; the
status codes are those of R59's table. -/
def Obligations.StatusAndActionCodes : Prop :=
  (Status.ok.code = 0b00#2 ∧ Status.corrected.code = 0b01#2 ∧ Status.uncorrectable.code = 0b10#2 ∧
    Status.illegalOp.code = 0b11#2) ∧
  Action.ok.word = 0b00000#5 ∧ (∀ p : Pos, (Action.pos p).word = 0b01#2 ++ p) ∧ Action.err.word = 0b10000#5 ∧
  ∀ a : Action, a.kind ≠ 0b11#2 ∧ a.status.code = a.kind

/-- R55, by R51's match and mask: the op decode is total, each word is one row's, and each has a response, whatever
the state. -/
def Obligations.EveryRequestWordDecodesToItsRow : Prop :=
  ∀ w : ReqWord,
    (∀ s : State, ∃ t, exec (decode w) s = .next t) ∧
    ((w &&& 0x300#10 = 0x000#10 ∧ decode w = .enc (w.extractLsb' 4 4) (w.extractLsb' 0 4)) ∨
    (w &&& 0x300#10 = 0x100#10 ∧ decode w = .dec (w.extractLsb' 0 8)) ∨
    (w &&& 0x300#10 = 0x200#10 ∧ decode w = .lut (w.extractLsb' 4 4) (w.extractLsb' 0 4)) ∨
    (w &&& 0x300#10 = 0x300#10 ∧ decode w = .reserved (w.extractLsb' 0 8)))

/-- R51, R58: words written out from the op map decode to the instructions they stand for (a sanity statement). -/
def Obligations.WrittenOutRequestWordsDecode : Prop :=
  decode 0b00_0000_1011#10 = .enc 0x0#4 0xB#4 ∧ decode 0b00_1111_0101#10 = .enc 0xF#4 0x5#4 ∧
  decode 0b01_0101_0100#10 = .dec 0x54#8 ∧ decode 0b10_0000_0011#10 = .lut 0x0#4 0x3#4 ∧
  decode 0b11_0101_0101#10 = .reserved 0x55#8

/-- Decode and encode agree on all bytes: a string of bytes decodes to an instruction exactly when the instruction's
encoding is one request word and the bytes are that word's (R49, R51, R55, R56; the bytes are the model's, log 8). -/
def Obligations.BytesDecodeExactlyToWhatEncodesToThem : Prop :=
  ∀ (bytes : List Byte) (i : Instr),
    decodeBytes bytes = .ok i ↔ ∃ w : ReqWord, encode i = [w] ∧ bytes = requestBytes w

/-- R58: a pseudo-instruction's words are those of its expansion, lower nibble first; a standalone product has none
(R51). -/
def Obligations.PseudoInstructionsEncodeAsTheirExpansion : Prop :=
  (∀ b : Byte, (encode (.encb b)).map decode = [.enc 0 (b.extractLsb' 0 4), .enc 0 (b.extractLsb' 4 4)]) ∧
  (∀ c0 c1 : Code, (encode (.decb c0 c1)).map decode = [.dec c0, .dec c1]) ∧
  ∀ a b : BitMatrix, encode (.gf2Matmul a b) = []

/-- R58: the operand ranges of the assembler's six forms, the request words they give, and the refusal of an operand
out of range. -/
def Obligations.AssemblerKeepsOperandRanges : Prop :=
  ∀ (t : List Char) (n : Nat), immediate t = some n →
    (assemble ['E', 'N', 'C'] [t] =
      if n < 16 then .ok (.enc 0 (BitVec.ofNat 4 n)) else .error .outOfRange) ∧
    (assemble ['D', 'E', 'C'] [t] = if n < 256 then .ok (.dec (BitVec.ofNat 8 n)) else .error .outOfRange) ∧
    (assemble ['L', 'U', 'T'] [t] =
      if n < 16 then .ok (.lut 0 (BitVec.ofNat 4 n)) else .error .outOfRange) ∧
    (assemble ['.', 'r', 'e', 'q'] [t] =
      if n < 1024 then .ok (decode (BitVec.ofNat 10 n)) else .error .outOfRange) ∧
    (assemble ['E', 'N', 'C', 'B'] [t] =
      if n < 256 then .ok (.encb (BitVec.ofNat 8 n)) else .error .outOfRange) ∧
    (∀ (t' : List Char) (n' : Nat), immediate t' = some n' →
      (assemble ['D', 'E', 'C', 'B'] [t, t'] =
        if n < 256 ∧ n' < 256 then .ok (.decb (BitVec.ofNat 8 n) (BitVec.ofNat 8 n')) else .error .outOfRange) ∧
      (n < 256 → n' < 256 → encode (.decb (BitVec.ofNat 8 n) (BitVec.ofNat 8 n')) =
        [BitVec.ofNat 10 (0x100 + n), BitVec.ofNat 10 (0x100 + n')])) ∧
    (n < 16 → encode (.enc 0 (BitVec.ofNat 4 n)) = [BitVec.ofNat 10 (0x000 + n)] ∧
      encode (.lut 0 (BitVec.ofNat 4 n)) = [BitVec.ofNat 10 (0x200 + n)]) ∧
    (n < 256 → encode (.dec (BitVec.ofNat 8 n)) = [BitVec.ofNat 10 (0x100 + n)] ∧
      encode (.encb (BitVec.ofNat 8 n)) = [BitVec.ofNat 10 (n % 16), BitVec.ofNat 10 (n / 16)]) ∧
    (n < 1024 → encode (decode (BitVec.ofNat 10 n)) = [BitVec.ofNat 10 n])

/-! ### Primitives and the matrix product (spec/40_gf2_primitives.md, spec/41_gf2_matrix_mult.md) -/

/-- R61 to R64: each bit primitive in range changes or reads its one bit and leaves the others, and is refused out of
range. -/
def Obligations.BitPrimitivesActOnOneBitInRange : Prop :=
  ∀ (n : Nat) (v : BitVec n) (i : Nat) (bit : Bool),
    (n ≤ i → bvGet? v i = .error .indexOutOfRange ∧ bvSet? v i = .error .indexOutOfRange ∧
      bvClr? v i = .error .indexOutOfRange ∧ bvXor? v i bit = .error .indexOutOfRange) ∧
    (i < n →
      bvGet? v i = .ok (v.getLsbD i) ∧
      (∃ u, bvSet? v i = .ok u ∧ u.getLsbD i = true ∧ ∀ j, j ≠ i → u.getLsbD j = v.getLsbD j) ∧
      (∃ u, bvClr? v i = .ok u ∧ u.getLsbD i = false ∧ ∀ j, j ≠ i → u.getLsbD j = v.getLsbD j) ∧
      ∃ u, bvXor? v i bit = .ok u ∧ u.getLsbD i = (v.getLsbD i ^^ bit) ∧
        ∀ j, j ≠ i → u.getLsbD j = v.getLsbD j)

/-- R65: an element access in range acts on the element at `r*C + c` and on no other element; out of range in either
index it is refused, even where the flat index is in range. -/
def Obligations.MatrixElementsAreRowMajorAndChecked : Prop :=
  ∀ (R C : Nat) (m : BitVec (R * C)) (r c : Nat) (bit : Bool),
    (¬ (r < R ∧ c < C) → bmGet? m r c = .error .indexOutOfRange ∧ bmSet? m r c = .error .indexOutOfRange ∧
      bmClr? m r c = .error .indexOutOfRange ∧ bmXor? m r c bit = .error .indexOutOfRange) ∧
    (r < R → c < C →
      bmGet? m r c = .ok (m.getLsbD (r * C + c)) ∧
      ∃ s l x, bmSet? m r c = .ok s ∧ bmClr? m r c = .ok l ∧ bmXor? m r c bit = .ok x ∧
        ∀ r' c', r' < R → c' < C →
          bmGet s r' c' = (if r' = r ∧ c' = c then true else bmGet m r' c') ∧
          bmGet l r' c' = (if r' = r ∧ c' = c then false else bmGet m r' c') ∧
          bmGet x r' c' = (if r' = r ∧ c' = c then bmGet m r c ^^ bit else bmGet m r' c'))

/-- R66, R67, R68, with R93: the all-zero matrix; `from_byte` copies the low bits, with its refusals; `to_byte` packs
the first min(C, 8) bits of row 0 and leaves the rest 0; the byte round trip. That length 0 is ZeroDimension, as R93's
table says and R67's comment does not, is the model's reading (log 9). -/
def Obligations.BytesAndRowVectorsConvert : Prop :=
  (∀ R C : Nat, bmCreate? R C =
    if R = 0 ∨ C = 0 then .error .zeroDimension else .ok (0#(R * C))) ∧
  (∀ (v : Byte) (len : Nat), (len = 0 → fromByte? v len = .error .zeroDimension) ∧
    (8 < len → fromByte? v len = .error .fromByteLength) ∧
    (1 ≤ len → len ≤ 8 → ∃ m, fromByte? v len = .ok m ∧
      ∀ i, i < len → bmGet (R := 1) (C := len) m 0 i = v.getLsbD i)) ∧
  (∀ (R C : Nat) (m : BitVec (R * C)), 1 ≤ R → ∀ i, i < 8 →
    (toByte m).getLsbD i = (decide (i < C) && bmGet m 0 i)) ∧
  ∀ b : Byte, toByte (R := 1) (C := 8) (fromByte b 8) = b

/-- R34, R36: byte j of a vector's byte image holds its bits 8j to 8j+7, there are ceil(n/8) bytes, and the spare
bits of the last one are 0. -/
def Obligations.ByteImageHoldsTheVectorLsbFirst : Prop :=
  ∀ (n : Nat) (v : BitVec n), (byteImage v).length = (n + 7) / 8 ∧
    ∀ j t, t < 8 → j < (n + 7) / 8 →
      ((byteImage v)[j]?.map fun b => b.getLsbD t) = some (decide (8 * j + t < n) && v.getLsbD (8 * j + t))

/-- R71: entry (r, c) of the product is the XOR over i of A[r,i] AND B[i,c], for all dimensions. -/
def Obligations.ProductEntriesAreDotProductsModTwo : Prop :=
  ∀ (R I C : Nat) (a : BitVec (R * I)) (b : BitVec (I * C)) (r c : Nat), r < R → c < C →
    bmGet (matmul R I C a b) r c =
      ((List.range I).map fun i => a.getLsbD (r * I + i) && b.getLsbD (i * C + c)).foldr Bool.xor false

/-- R72: an entry of the product depends only on row r of A and column c of B. -/
def Obligations.ProductEntryDependsOnItsRowAndColumn : Prop :=
  ∀ (R I C : Nat) (a a' : BitVec (R * I)) (b b' : BitVec (I * C)) (r c : Nat), r < R → c < C →
    (∀ i < I, bmGet a r i = bmGet a' r i) → (∀ i < I, bmGet b i c = bmGet b' i c) →
    bmGet (matmul R I C a b) r c = bmGet (matmul R I C a' b') r c

/-- R10, R72 (addition is XOR, no carries): the product is additive in each operand, for all dimensions. -/
def Obligations.ProductIsAdditiveInEachOperand : Prop :=
  (∀ (R I C : Nat) (a a' : BitVec (R * I)) (b : BitVec (I * C)),
    matmul R I C (a ^^^ a') b = matmul R I C a b ^^^ matmul R I C a' b) ∧
  ∀ (R I C : Nat) (a : BitVec (R * I)) (b b' : BitVec (I * C)),
    matmul R I C a (b ^^^ b') = matmul R I C a b ^^^ matmul R I C a b'

/-- R75 notes it from general knowledge: the product is associative, for all dimensions. -/
def Obligations.ProductIsAssociative : Prop :=
  ∀ (R I J C : Nat) (a : BitVec (R * I)) (b : BitVec (I * J)) (d : BitVec (J * C)),
    matmul R J C (matmul R I J a b) d = matmul R I C a (matmul I J C b d)

/-- R93's last column: each unit over any constants, computed with every contract check made (the lengths, the
dimensions, and every index it wires or, for the corrected position, decides at run time), is refused nowhere and
gives what the unit gives. -/
def Obligations.CoreUnitsNeverViolateAContract : Prop :=
  (∀ (rom : Rom) (n : Msg), encodeUnit? rom n = .ok (encodeUnit rom n)) ∧
  (∀ (rom : Rom) (c : Code), syndrome? rom c = .ok (syndrome rom c)) ∧
  (∀ (c : Code) (a : Action), correct? c a = .ok (correct c a)) ∧
  ∀ (rom : Rom) (c : Code), decodeUnit? rom c = .ok (decodeUnit rom c)

/-! ### The units (spec/42 to spec/44) -/

/-- R77, R78: the encoder's closed form; the message stands in the low nibble. -/
def Obligations.EncoderClosedFormIsSystematic : Prop :=
  ∀ n : Msg,
    let code := encodeUnit Rom.wired n
    (code.getLsbD 0 = n.getLsbD 0 ∧ code.getLsbD 1 = n.getLsbD 1 ∧ code.getLsbD 2 = n.getLsbD 2 ∧
      code.getLsbD 3 = n.getLsbD 3) ∧
    code.getLsbD 4 = (n.getLsbD 1 ^^ n.getLsbD 2 ^^ n.getLsbD 3) ∧
    code.getLsbD 5 = (n.getLsbD 0 ^^ n.getLsbD 2 ^^ n.getLsbD 3) ∧
    code.getLsbD 6 = (n.getLsbD 0 ^^ n.getLsbD 1 ^^ n.getLsbD 3) ∧
    code.getLsbD 7 = (n.getLsbD 0 ^^ n.getLsbD 1 ^^ n.getLsbD 2) ∧
    code.extractLsb' 0 4 = n

/-- R76's linearity, for every generator matrix, not only the wired one. -/
def Obligations.EncoderIsLinearForAnyGenerator : Prop :=
  ∀ (rom : Rom) (m n : Msg), encodeUnit rom (m ^^^ n) = encodeUnit rom m ^^^ encodeUnit rom n

/-- R85: the syndrome's closed form, and the syndrome of one flipped bit is its row of Ht. -/
def Obligations.SyndromeClosedForm : Prop :=
  (∀ c : Code,
    let s := syndrome Rom.wired c
    s.getLsbD 0 = (c.getLsbD 1 ^^ c.getLsbD 2 ^^ c.getLsbD 3 ^^ c.getLsbD 4) ∧
    s.getLsbD 1 = (c.getLsbD 0 ^^ c.getLsbD 2 ^^ c.getLsbD 3 ^^ c.getLsbD 5) ∧
    s.getLsbD 2 = (c.getLsbD 0 ^^ c.getLsbD 1 ^^ c.getLsbD 3 ^^ c.getLsbD 6) ∧
    s.getLsbD 3 = (c.getLsbD 0 ^^ c.getLsbD 1 ^^ c.getLsbD 2 ^^ c.getLsbD 7)) ∧
  (∀ n : Msg, syndrome Rom.wired (encodeUnit Rom.wired n) = 0#4) ∧
  ∀ (n : Msg) (p : Pos), syndrome Rom.wired (encodeUnit Rom.wired n ^^^ BitVec.twoPow 8 p.toNat) =
    [0xE#4, 0xD#4, 0xB#4, 0x7#4, 0x1#4, 0x2#4, 0x4#4, 0x8#4].getD p.toNat 0#4

/-- R87, R88, with R86 and R89: the decoder's correction, nibble, status and diagnostics, by what the table says of
the syndrome; exactly one bit is flipped for a position and none otherwise; the status is never ILLEGAL_OP. Of any
constants, not only the wired ones. -/
def Obligations.DecoderOutputsFollowTheTable : Prop :=
  ∀ (rom : Rom) (c : Code),
    let d := decodeUnit rom c
    d.syn = syndrome rom c ∧ d.status ≠ .illegalOp ∧
    (correct c .ok = c ∧ correct c .err = c ∧ ∀ p : Pos, correct c (.pos p) = c ^^^ BitVec.twoPow 8 p.toNat) ∧
    d.msg = (correct c (lookup rom (syndrome rom c))).extractLsb' 0 4 ∧
    (lookup rom (syndrome rom c) = .ok → d.status = .ok ∧ d.msg = c.extractLsb' 0 4 ∧ d.pos = 0#3) ∧
    (lookup rom (syndrome rom c) = .err → d.status = .uncorrectable ∧ d.msg = c.extractLsb' 0 4 ∧ d.pos = 0#3) ∧
    ∀ p : Pos, lookup rom (syndrome rom c) = .pos p → d.status = .corrected ∧ d.pos = p ∧
      d.msg = (c ^^^ BitVec.twoPow 8 p.toNat).extractLsb' 0 4 ∧
      (4 ≤ p.toNat → d.msg = c.extractLsb' 0 4)

/-- R91: round trip; every single-bit error is corrected; every double-bit error is detected; every triple-bit error
is miscorrected. -/
def Obligations.CodeCorrectsOneAndDetectsTwoErrors : Prop :=
  (∀ m : Msg, (decodeUnit Rom.wired (encodeUnit Rom.wired m)).msg = m ∧
    (decodeUnit Rom.wired (encodeUnit Rom.wired m)).status = .ok) ∧
  (∀ (m : Msg) (p : Pos),
    let d := decodeUnit Rom.wired (encodeUnit Rom.wired m ^^^ BitVec.twoPow 8 p.toNat)
    d.msg = m ∧ d.status = .corrected ∧ d.pos = p) ∧
  (∀ (m : Msg) (p q : Pos), p < q →
    (decodeUnit Rom.wired
      (encodeUnit Rom.wired m ^^^ BitVec.twoPow 8 p.toNat ^^^ BitVec.twoPow 8 q.toNat)).status = .uncorrectable) ∧
  ∀ (m : Msg) (p q r : Pos), p < q → q < r →
    let d := decodeUnit Rom.wired
      (encodeUnit Rom.wired m ^^^ BitVec.twoPow 8 p.toNat ^^^ BitVec.twoPow 8 q.toNat ^^^ BitVec.twoPow 8 r.toNat)
    d.status = .corrected ∧ d.msg ≠ m

/-! ### What each instruction does -/

/-- R79: a request with op 00 completes with ENC's response, ignores req_data[7:4], and records no fault. -/
def Obligations.EncCompletesWithItsCodeword : Prop :=
  ∀ (s : State) (w : ReqWord), s.rom = Rom.wired → w &&& 0x300#10 = 0x000#10 →
    ∃ t, exec (decode w) s = .next t ∧ t.faults = s.faults ∧
      Answered s t
        { data := encodeUnit Rom.wired (w.extractLsb' 0 4), status := .ok, syn := 0#4, pos := 0#3 } .plain

/-- R90: a request with op 01 completes with DEC's response and records no fault; of the 256 codewords 16 give OK,
128 CORRECTED and 112 UNCORRECTABLE. -/
def Obligations.DecCompletesWithItsDecoding : Prop :=
  (∀ (s : State) (w : ReqWord), s.rom = Rom.wired → w &&& 0x300#10 = 0x100#10 →
    let d := decodeUnit Rom.wired (w.extractLsb' 0 8)
    ∃ t, exec (decode w) s = .next t ∧ t.faults = s.faults ∧
      Answered s t { data := 0#4 ++ d.msg, status := d.status, syn := d.syn, pos := d.pos } .plain) ∧
  [Status.ok, .corrected, .uncorrectable].map (fun st =>
    ((List.range 256).filter fun k => (decodeUnit Rom.wired (BitVec.ofNat 8 k)).status = st).length) = [16, 128, 112]

/-- R83, with R81: a request with op 10 completes with LUT's response, ignores req_data[7:4], and records no
fault. -/
def Obligations.LutCompletesWithItsEntry : Prop :=
  ∀ (s : State) (w : ReqWord), s.rom = Rom.wired → w &&& 0x300#10 = 0x200#10 →
    let syn := w.extractLsb' 0 4
    ∃ t r, exec (decode w) s = .next t ∧ t.faults = s.faults ∧ Answered s t r .plain ∧
      r.data = 0#8 ∧ r.syn = syn ∧
      (lutTable[syn.toNat]'syn.isLt = .ok → r.status = .ok ∧ r.pos = 0#3) ∧
      (lutTable[syn.toNat]'syn.isLt = .err → r.status = .uncorrectable ∧ r.pos = 0#3) ∧
      ∀ p : Pos, lutTable[syn.toNat]'syn.isLt = .pos p → r.status = .corrected ∧ r.pos = p

/-- R54, R96: a request with op 11 completes with the fixed response, ignores req_data, and records ILLEGAL_OP against
its cycle. That the machine goes on after the fault (log 5) and that the record names the cycle by its count (log 15)
are the model's. -/
def Obligations.ReservedOpAnswersIllegalOpAndRecordsTheFault : Prop :=
  ∀ (s : State) (w : ReqWord), w &&& 0x300#10 = 0x300#10 →
    ∃ t, exec (decode w) s = .next t ∧ t.faults = s.faults ++ [{ fault := .illegalOp, cycle := s.cycle }] ∧
      Answered s t { data := 0x00#8, status := .illegalOp, syn := 0x0#4, pos := 0#3 } .plain

/-- R53: ENC or LUT requests that differ only in req_data[7:4] do the same, and no value of those bits faults; so with
all of req_data for the reserved op (R54). (Before the first reset edge "the same" takes in unspecified stages, which
are drawn by edge and stage alone: logs 3 and 7.) -/
def Obligations.IgnoredRequestBitsDoNotMatter : Prop :=
  ∀ (s : State) (w w' : ReqWord), reqOp w = reqOp w' →
    (reqOp w = 0b00#2 ∨ reqOp w = 0b10#2 → w.extractLsb' 0 4 = w'.extractLsb' 0 4 →
      exec (decode w) s = exec (decode w') s ∧ ∃ t, exec (decode w) s = .next t ∧ t.faults = s.faults) ∧
    (reqOp w = 0b11#2 → exec (decode w) s = exec (decode w') s)

/-- R48, R69, R70, R71: a standalone product with all dimensions at least 1 and agreeing completes: port p shows the
ROWS × COLS product, entry by entry. That nothing else changes, the cycle number neither, is deduced from R42 and R104
(log 12), and that products of every size show on the one port is the model's choice (log 18). -/
def Obligations.StandaloneProductCompletes : Prop :=
  ∀ (s : State) (a b : BitMatrix), 1 ≤ a.rows → 1 ≤ a.cols → 1 ≤ b.cols → a.cols = b.rows →
    ∃ p : BitMatrix, exec (.gf2Matmul a b) s = .next { s with product := some p } ∧
      p.rows = a.rows ∧ p.cols = b.cols ∧
      ∀ r c, r < a.rows → c < b.cols → p.data.getLsbD (r * b.cols + c) =
        ((List.range a.cols).map fun i =>
          a.data.getLsbD (r * a.cols + i) && b.data.getLsbD (i * b.cols + c)).foldr Bool.xor false

/-- R69, R70, R93: a product with a zero dimension is refused, and so is a mismatch; which of two violations is named
is the model's choice (log 9). -/
def Obligations.StandaloneProductIsRefusedOnAViolation : Prop :=
  ∀ (s : State) (a b : BitMatrix),
    (a.rows = 0 ∨ a.cols = 0 ∨ b.rows = 0 ∨ b.cols = 0 →
      exec (.gf2Matmul a b) s = .refused (.contractViolation .zeroDimension)) ∧
    (1 ≤ a.rows → 1 ≤ a.cols → 1 ≤ b.rows → 1 ≤ b.cols → a.cols ≠ b.rows →
      exec (.gf2Matmul a b) s = .refused (.contractViolation .dimensionMismatch))

/-- R13, R58: ENCB completes as ENC of the lower nibble and then ENC of the upper one, in two consecutive cycles; on a
host that awaits nothing and a block without a pipeline, the two codewords are emitted in that order. -/
def Obligations.EncbCompletesAsTwoEncodings : Prop :=
  ∀ (s : State) (b : Byte), s.rom = Rom.wired →
    ∃ m t, exec (.encb b) s = .next t ∧ t.faults = s.faults ∧
      Answered s m { data := encodeUnit Rom.wired (b.extractLsb' 0 4), status := .ok, syn := 0#4, pos := 0#3 } .emit ∧
      Answered m t { data := encodeUnit Rom.wired (b.extractLsb' 4 4), status := .ok, syn := 0#4, pos := 0#3 } .emit ∧
      (s.pipe = [] → s.host.awaiting = [] →
        t.host.emitted = s.host.emitted ++
          [encodeUnit Rom.wired (b.extractLsb' 0 4), encodeUnit Rom.wired (b.extractLsb' 4 4)])

/-- R14, R58: DECB completes as DEC c0 and then DEC c1, in two consecutive cycles; on a host that awaits nothing and a
block without a pipeline, the byte with c1's message above c0's is emitted. -/
def Obligations.DecbCompletesAsTwoDecodings : Prop :=
  ∀ (s : State) (c0 c1 : Code), s.rom = Rom.wired →
    let d0 := decodeUnit Rom.wired c0
    let d1 := decodeUnit Rom.wired c1
    ∃ m t, exec (.decb c0 c1) s = .next t ∧ t.faults = s.faults ∧
      Answered s m { data := 0#4 ++ d0.msg, status := d0.status, syn := d0.syn, pos := d0.pos } .low ∧
      Answered m t { data := 0#4 ++ d1.msg, status := d1.status, syn := d1.syn, pos := d1.pos } .high ∧
      (s.pipe = [] → s.host.awaiting = [] → t.host.emitted = s.host.emitted ++ [d1.msg ++ d0.msg])

/-- The frame of every instruction: what it never changes, whichever it is, and what only a few may change. A request
touches neither the standalone unit's port nor, unless reserved, the fault record; a standalone product touches
nothing but its port (R27, R42, R96, R104; that it takes no cycle is deduced: log 12). -/
def Obligations.InstructionsLeaveTheRestUnchanged : Prop :=
  ∀ (i : Instr) (s t : State), exec i s = .next t →
    (t.rom = s.rom ∧ t.latency = s.latency ∧ t.script = s.script ∧ t.resetSeen = s.resetSeen) ∧
    ((∀ ig, i ≠ .reserved ig) → t.faults = s.faults) ∧
    ((∀ a b, i ≠ .gf2Matmul a b) → t.product = s.product) ∧
    (∀ a b, i = .gf2Matmul a b →
      t.pipe = s.pipe ∧ t.outputs = s.outputs ∧ t.respValid = s.respValid ∧ t.host = s.host ∧ t.faults = s.faults ∧ t.cycle = s.cycle)

/-- R13, R14, R16: only a pseudo-instruction's responses make the host emit: where every request awaiting a response
is a plain one, a request leaves the host's byte stream and its kept nibble alone. -/
def Obligations.PlainRequestsEmitNothing : Prop :=
  ∀ (i : Instr) (s t : State), (∀ b, i ≠ .encb b) → (∀ c0 c1, i ≠ .decb c0 c1) →
    (∀ d ∈ s.host.awaiting, d = .plain) → exec i s = .next t →
    t.host.emitted = s.host.emitted ∧ t.host.held = s.host.held ∧ ∀ d ∈ t.host.awaiting, d = .plain

/-! ### Steps (spec/70_reset_and_hazards.md) -/

/-- A step runs the decoded instruction: in a run whose instances elaborate (R98), where the host's next cycle presents
a request and no reset, whose bytes decode to i, the step is exec of i on the state with that cycle taken off the
script and its reads recorded; a host event that is an instruction is run as it is (R49, R51, R107). -/
def Obligations.StepRunsTheDecodedRequest : Prop :=
  (∀ (s : State) (c : HostCycle) (rest : List HostEvent) (i : Instr), s.Elaborates → s.script = .cycle c :: rest →
    c.reqValid = true → ¬ s.ResetsIn c → decodeBytes (requestBytes c.req) = .ok i →
    step s = exec i (recordReads c { s with script := rest })) ∧
  (∀ (s : State) (i : Instr) (rest : List HostEvent), s.Elaborates → s.script = .instr i :: rest →
    step s = exec i { s with script := rest }) ∧
  ∀ (s : State) (w : ReqWord), s.Elaborates → step (s.present w) = exec (decode w) s

/-- R107: F is the op dispatch, and whatever the request word and the state (after a reset edge, where there is a
pipeline, R109; in a run whose instances elaborate, R98), the wrapper's response is F of the word. -/
def Obligations.EveryRequestIsAnsweredByTheResponseFunction : Prop :=
  (∀ (rom : Rom) (w : ReqWord),
    (w.extractLsb' 8 2 = 0b00#2 → respFn rom w = (encResp rom (w.extractLsb' 0 4)).word) ∧
    (w.extractLsb' 8 2 = 0b01#2 → respFn rom w = (decResp rom (w.extractLsb' 0 8)).word) ∧
    (w.extractLsb' 8 2 = 0b10#2 → respFn rom w = (lutResp rom (w.extractLsb' 0 4)).word) ∧
    (w.extractLsb' 8 2 = 0b11#2 → respFn rom w = reservedResp.word)) ∧
  ∀ (s : State) (w : ReqWord), s.Elaborates → ∃ t, step (s.present w) = .next t ∧
    (s.pipe = [] → t.respValid = true ∧ t.outputs = some (Resp.ofWord (respFn s.rom w))) ∧
    (s.pipe ≠ [] → s.resetSeen = true → t.pipe.head? = some { pv := true, pd := respFn s.rom w })

/-- R49, R111, R112: while req_valid = 0 the request word is ignored and no transaction takes place: with no pipeline
resp_valid is 0; with one, after a reset edge, an invalid stage enters; the step is the same whatever the word. The
equality of steps takes in the new stage's data, which R112 leaves as any value: it is the same in both because the
model draws it by edge and stage alone (log 3). -/
def Obligations.NoTransactionWithoutReqValid : Prop :=
  ∀ (s : State) (c : HostCycle) (rest : List HostEvent) (w : ReqWord), s.script = .cycle c :: rest →
    c.reqValid = false → ¬ s.ResetsIn c →
    step { s with script := .cycle { c with req := w } :: rest } = step s ∧
    (s.Elaborates → ∃ t, step s = .next t ∧ (s.pipe = [] → t.respValid = false ∧ t.outputs = none) ∧
      (s.pipe ≠ [] → s.resetSeen = true → ∃ st, t.pipe = st :: s.pipe.dropLast ∧ st.pv = false) ∧
      t.product = s.product ∧ t.host.awaiting.length ≤ s.host.awaiting.length)

/-- R108, R98: at a reset edge every valid bit becomes 0 whatever the pipeline held (before the first reset too), what
was in flight is gone, a request at that edge is dropped and does not matter, and G, Ht and LUT stay. That without a
pipeline the level of rst does nothing (log 6), that the host awaits nothing after the edge (log 13), and that the
equality of steps takes in the unspecified data, drawn by edge and stage alone (log 3), are the model's. -/
def Obligations.ResetEdgeClearsThePipeline : Prop :=
  ∀ (s : State) (c : HostCycle) (rest : List HostEvent), s.script = .cycle c :: rest →
    (s.pipe = [] → ∀ v : Bool, step { s with script := .cycle { c with rst := v } :: rest } = step s) ∧
    (s.ResetsIn c → (∀ (v : Bool) (w : ReqWord),
      step { s with script := .cycle { c with reqValid := v, req := w } :: rest } = step s) ∧
    (s.Elaborates → ∃ t, step s = .next t ∧ (∀ st ∈ t.pipe, st.pv = false) ∧ t.latency = s.latency ∧
      t.inFlight = [] ∧ t.host.awaiting = [] ∧ t.resetSeen = true ∧ t.rom = s.rom ∧ t.script = rest))

/-- R109, R110, R114: from power-up with a pipeline, one cycle with rst = 1 and no read leaves no fault and the
invariant; without a pipeline power-up needs no initialisation. In every cycle before the first reset edge, the one
that ends in it too, whatever the stages hold: resp_valid shows pv[L], which is unspecified, no response field has a
value, each one read is recorded as READ_UNSPECIFIED and the host takes nothing. The last clause, that `pv` and `pd` do
not matter to what comes after, is the model's choice: free values drawn by edge and stage (log 3) stand in place of
R112's shift (log 7). So is one record for each field, before the transaction's (log 15), and that nothing is taken
(log 7). -/
def Obligations.PowerUpNeedsOneResetEdge : Prop :=
  (∀ (latency : Nat) (c : HostCycle) (rest : List HostEvent), latency ≠ 0 → c.rst = true → c.reads = [] →
    scriptDefect rest = none → ∃ t, step { State.powerUp latency with script := .cycle c :: rest } = .next t ∧ t.Inv ∧ t.NoFault ∧
      t.latency = latency ∧ t.host.received = []) ∧
  (State.powerUp 0).Inv ∧ (∀ latency, (State.powerUp latency).rom = Rom.wired) ∧
  ∀ (s : State) (c : HostCycle) (rest : List HostEvent) (front : List Stage) (last : Stage),
    s.pipe = front ++ [last] → s.resetSeen = false → s.Elaborates → s.script = .cycle c :: rest →
    ∃ t, step s = .next t ∧ t.respValid = last.pv ∧ t.outputs = none ∧ t.host.received = s.host.received ∧
      s.faults ++ (c.reads.map fun f => { fault := .readUnspecified f, cycle := s.cycle }) <+: t.faults ∧
      ∀ (front' : List Stage) (last' : Stage), front'.length = front.length →
        step { s with pipe := front' ++ [last'] } = .next { t with respValid := last'.pv }

/-- R31: after reset the constants hold and every valid bit is 0, for every LATENCY; no fault is recorded, and the
invariant holds. -/
def Obligations.ResetStateIsAsTheSpecSays : Prop :=
  (∀ latency : Nat, (State.resetAt latency).rom = Rom.wired ∧ (State.resetAt latency).latency = latency ∧
    (∀ st ∈ (State.resetAt latency).pipe, st.pv = false) ∧ (State.resetAt latency).NoFault ∧
    (State.resetAt latency).Inv ∧ (State.resetAt latency).IllegalStatusRecorded) ∧
  State.reset.latency = 0

/-- R27, R31, R40, R110: every step keeps the invariant: the constants are the wired ones, the outputs mean
something, and the host awaits exactly the responses in flight. -/
def Obligations.EveryStepKeepsTheInvariant : Prop :=
  ∀ s t : State, s.Inv → step s = .next t → t.Inv

/-- R27, with R21: G, Ht and LUT hold their values from power-up on, and no step changes them or LATENCY, in any
state. -/
def Obligations.ConstantsAndLatencyNeverChange : Prop :=
  (∀ latency, (State.powerUp latency).rom = Rom.wired) ∧
  ∀ s t : State, step s = .next t → t.rom = s.rom ∧ t.latency = s.latency

/-- R54, R59: a response with status ILLEGAL_OP never goes unrecorded: every step keeps it that each such response
taken, shown or in flight has its fault in the record. -/
def Obligations.IllegalStatusNeverGoesUnrecorded : Prop :=
  ∀ s t : State, s.IllegalStatusRecorded → step s = .next t → t.IllegalStatusRecorded

/-- R96: a recorded fault is never cleared, by no number of steps, so a state that holds one leads to no final
state. -/
def Obligations.RecordedFaultsAreNeverCleared : Prop :=
  ∀ (k : Nat) (s t : State), run k s = .next t →
    s.faults <+: t.faults ∧ (¬ s.NoFault → ¬ t.Final)

/-- R96, R114: a step records exactly the faults of the rule's two cases, each with its cycle, after those recorded
before; a state that holds one is not final. One record for each field read, the reads before the transaction's fault,
and the cycle's count are the model's choice (log 15). -/
def Obligations.FaultsAreRecordedInExactlyTwoCases : Prop :=
  ∀ s t : State, step s = .next t →
    t.faults = s.faults ++ newFaults s ∧ (s.faults ++ newFaults s ≠ [] → ¬ t.Final)

/-- R93, R98, with R92 and R55: a step answers a next state in every state whose script asks for no instance that
violates a contract, and only there; in any other the run is refused before its next event, whatever that is. No step
ends in a fault. That one refused instance refuses the whole run (log 19), and that the first violation of several is
the one named (log 9), are the model's. -/
def Obligations.OnlyContractViolationsStopAStep : Prop :=
  ∀ s : State,
    (scriptDefect s.script = none ↔ ∀ a b, .instr (.gf2Matmul a b) ∈ s.script →
      1 ≤ a.rows ∧ 1 ≤ a.cols ∧ 1 ≤ b.rows ∧ 1 ≤ b.cols ∧ a.cols = b.rows) ∧
    (scriptDefect s.script = none → ∃ t, step s = .next t) ∧
    ∀ v, scriptDefect s.script = some v → step s = .refused (.contractViolation v)

/-- R111, R112: what a cycle requests is what the outputs show exactly LATENCY cycles later, for every LATENCY,
whatever the pipeline held and whatever is requested meanwhile: F of the request word, or nothing valid if
req_valid was 0. -/
def Obligations.ResponseShowsExactlyLatencyCyclesLater : Prop :=
  ∀ (s : State) (first : HostCycle) (later : List HostCycle) (rest : List HostEvent),
    s.resetSeen = true → (∀ c ∈ first :: later, c.rst = false) → later.length = s.latency → s.Elaborates →
    s.script = (first :: later).map .cycle ++ rest →
    ∃ t, run (s.latency + 1) s = .next t ∧ t.script = rest ∧ t.respValid = first.reqValid ∧
      t.outputs = if first.reqValid then some (Resp.ofWord (respFn s.rom first.req)) else none

/-- R112, R113, R40: responses leave in request order and none is lost: what the host has taken followed by what is in
flight grows by exactly the answers of what was requested. That the host takes every response as it is shown (log 14),
the one shown in a cycle that ends in a reset edge too (log 13), is the model's. -/
def Obligations.ResponsesLeaveInRequestOrder : Prop :=
  ∀ s t : State, s.Inv → step s = .next t →
    (∀ i s', fetch s = .run i s' →
      t.host.received ++ t.inFlight = s.host.received ++ s.inFlight ++ answers s.rom i) ∧
    (∀ s', fetch s = .idle s' → t.host.received ++ t.inFlight = s.host.received ++ s.inFlight) ∧
    (∀ s', fetch s = .reset s' → t.inFlight = [] ∧
      t.host.received = s.host.received ++ t.outputs.toList)

/-- R23, R116: two requests cannot interfere: two blocks with the same constants and LATENCY, whatever else they hold
and whatever else is asked of them, show the same response to the same request. -/
def Obligations.ResponseDependsOnItsOwnRequestOnly : Prop :=
  ∀ (s s' t t' : State) (first first' : HostCycle) (later later' : List HostCycle) (rest rest' : List HostEvent),
    s.rom = s'.rom → s.latency = s'.latency → s.resetSeen = true → s'.resetSeen = true →
    (∀ c ∈ first :: later, c.rst = false) → (∀ c ∈ first' :: later', c.rst = false) →
    later.length = s.latency → later'.length = s'.latency →
    first.req = first'.req → first.reqValid = first'.reqValid →
    s.script = (first :: later).map .cycle ++ rest → s'.script = (first' :: later').map .cycle ++ rest' →
    run (s.latency + 1) s = .next t → run (s'.latency + 1) s' = .next t' → t.outputs = t'.outputs

/-- R13: at any LATENCY, ENCB on a host that awaits nothing, followed by LATENCY idle cycles, emits the codewords of
the two nibbles, lower first. That the two requests come in consecutive cycles of one step, so that LATENCY idle
cycles are enough, is the model's choice (log 11); that the host lets the block run idle is the statement's. -/
def Obligations.EncbEmitsBothCodewordsAtAnyLatency : Prop :=
  ∀ (s : State) (b : Byte), s.Inv → s.host.awaiting = [] → s.script = [.instr (.encb b)] →
    ∃ t, run (s.latency + 1) s = .next t ∧ t.host.awaiting = [] ∧ t.faults = s.faults ∧
      t.host.emitted = s.host.emitted ++
        [encodeUnit Rom.wired (b.extractLsb' 0 4), encodeUnit Rom.wired (b.extractLsb' 4 4)]

/-- R14, R76, R91: the host's byte survives, at any LATENCY: DECB of the two codewords of b's nibbles, each with at most
one bit flipped, on a host that awaits nothing and followed by LATENCY idle cycles, emits b. That the two requests
come in consecutive cycles of one step is the model's choice (log 11). -/
def Obligations.ByteSurvivesOneFlippedBitPerCodeword : Prop :=
  ∀ (s : State) (b : Byte) (e0 e1 : Code), s.Inv → s.host.awaiting = [] →
    (e0 = 0#8 ∨ ∃ p : Pos, e0 = BitVec.twoPow 8 p.toNat) → (e1 = 0#8 ∨ ∃ p : Pos, e1 = BitVec.twoPow 8 p.toNat) →
    s.script = [.instr (.decb (encodeUnit Rom.wired (b.extractLsb' 0 4) ^^^ e0)
      (encodeUnit Rom.wired (b.extractLsb' 4 4) ^^^ e1))] →
    ∃ t, run (s.latency + 1) s = .next t ∧ t.host.awaiting = [] ∧ t.faults = s.faults ∧
      t.host.emitted = s.host.emitted ++ [b]
end

