-- ==== Sys2Proof/Laws/Gf2.lean ====
section
/-! SUPPORT. Reading one bit of what a primitive gives. -/

namespace Sys2Proof

theorem bvGet_bvXor {n : Nat} (v : BitVec n) (i j : Nat) (bit : Bool) :
    bvGet (bvXor v i bit) j = (bvGet v j ^^ (decide (i < n) && decide (i = j) && bit)) := by
  cases bit <;> simp [bvGet, bvXor, BitVec.getLsbD_twoPow]

theorem bvGet_bvSet {n : Nat} (v : BitVec n) (i j : Nat) :
    bvGet (bvSet v i) j = (bvGet v j || (decide (i < n) && decide (i = j))) := by
  simp [bvGet, bvSet, BitVec.getLsbD_twoPow]

theorem bvGet_zero (n j : Nat) : bvGet (0#n) j = false := by simp [bvGet]

/-- Two elements of a matrix with C columns stand at different flat places. -/
theorem flatIndex_inj {C r c r' c' : Nat} (hc : c < C) (hc' : c' < C) :
    flatIndex C r c = flatIndex C r' c' ↔ r = r' ∧ c = c' := by
  constructor
  · intro h
    have hr : r = r' := by
      have h1 := congrArg (· / C) h
      simpa [flatIndex, Nat.mul_comm, Nat.mul_add_div (by omega : C > 0), Nat.div_eq_of_lt hc, Nat.div_eq_of_lt hc']
        using h1
    subst hr
    exact ⟨rfl, by unfold flatIndex at h; omega⟩
  · rintro ⟨rfl, rfl⟩; rfl

theorem flatIndex_lt {R C r c : Nat} (hr : r < R) (hc : c < C) : flatIndex C r c < R * C := by
  have : (r + 1) * C ≤ R * C := Nat.mul_le_mul_right C hr
  rw [Nat.add_mul] at this
  unfold flatIndex
  omega

/-- XOR-accumulating a list of bits into one place: R71's inner loop. -/
theorem bvGet_foldl_bvXor {n k : Nat} (hk : k < n) (f : Nat → Bool) (j : Nat) (l : List Nat) (p : BitVec n) :
    bvGet (l.foldl (fun p i => bvXor p k (f i)) p) j =
      (bvGet p j ^^ (decide (k = j) && (l.map f).foldr Bool.xor false)) := by
  induction l generalizing p with
  | nil => simp
  | cons a l ih =>
    simp only [List.foldl_cons, ih, bvGet_bvXor, List.map_cons, List.foldr_cons, hk]
    cases decide (k = j) <;> simp

/-- Matrices of the same dimensions with the same elements are the same. -/
theorem eq_of_bmGet_eq {R C : Nat} {p q : BitVec (R * C)}
    (h : ∀ r c, r < R → c < C → bmGet p r c = bmGet q r c) : p = q := by
  apply BitVec.eq_of_getLsbD_eq
  intro i hi
  have hC : 0 < C := by
    rcases Nat.eq_zero_or_pos C with h0 | h0
    · simp [h0] at hi
    · exact h0
  have := h (i / C) (i % C) (Nat.div_lt_of_lt_mul (by rwa [Nat.mul_comm])) (Nat.mod_lt _ hC)
  simpa [bmGet, bvGet, flatIndex, Nat.div_add_mod'] using this

/-! ### The checked forms: what they answer where no check fails (R93) -/

/-- A fold whose every step passes its check passes. -/
theorem foldlM_eq_ok {α β : Type} {g : β → α → Except Violation β} {f : β → α → β} {l : List α} {b : β}
    (h : ∀ b, ∀ x ∈ l, g b x = .ok (f b x)) : l.foldlM g b = .ok (l.foldl f b) := by
  induction l generalizing b with
  | nil => rfl
  | cons a l ih =>
    rw [List.foldlM_cons, h b a (by simp)]
    exact ih fun b x hx => h b x (by simp [hx])

theorem bmGet?_eq_ok {R C r c : Nat} (hr : r < R) (hc : c < C) (m : BitVec (R * C)) :
    bmGet? m r c = .ok (bmGet m r c) := by simp [bmGet?, checkElement, hr, hc, Except.map]

theorem bmXor?_eq_ok {R C r c : Nat} (hr : r < R) (hc : c < C) (m : BitVec (R * C)) (bit : Bool) :
    bmXor? m r c bit = .ok (bmXor m r c bit) := by simp [bmXor?, checkElement, hr, hc, Except.map]

theorem fromByte?_eq_ok {length : Nat} (h : 1 ≤ length) (h' : length ≤ 8) (value : Byte) :
    fromByte? value length = .ok (fromByte value length) := by
  rw [fromByte?, if_neg (by omega), if_neg (by omega)]
  refine foldlM_eq_ok fun m i hi => ?_
  have hi : i < length := List.mem_range.mp hi
  simp [bvGet?, bmSet?, checkIndex, checkElement, hi, show i < 8 by omega, Except.map, bind, Except.bind]

theorem toByte?_eq_ok {R C : Nat} (h : 1 ≤ R) (m : BitVec (R * C)) : toByte? m = .ok (toByte m) := by
  refine foldlM_eq_ok fun out i hi => ?_
  have hi : i < C ∧ i < 8 := by simpa using hi
  simp [bmGet?, bvSet?, checkIndex, checkElement, hi, show 0 < R by omega, Except.map, bind, Except.bind]

theorem matmulWired?_eq_ok {rows inner cols : Nat} (hr : 1 ≤ rows) (hi : 1 ≤ inner) (hc : 1 ≤ cols)
    (a : BitVec (rows * inner)) (b : BitVec (inner * cols)) :
    matmulWired? rows inner cols a b = .ok (matmul rows inner cols a b) := by
  rw [matmulWired?, if_neg (by omega)]
  refine foldlM_eq_ok fun _ r hr => foldlM_eq_ok fun _ c hc => foldlM_eq_ok fun p i hi => ?_
  rw [List.mem_range] at hr hc hi
  simp [bmGet?_eq_ok, bmXor?_eq_ok, hr, hc, hi, bind, Except.bind]

end Sys2Proof
end

