-- ==== Sys2Proof/Laws/Operands.lean ====
section
/-! SUPPORT. The slices of a word put together from its fields, and decoding of such a word. -/

namespace Sys2Proof

@[simp] theorem reqOp_reqWord : ∀ (op : BitVec 2) (data : Byte), reqOp (reqWord op data) = op := by decide

@[simp] theorem reqData_reqWord : ∀ (op : BitVec 2) (data : Byte), reqData (reqWord op data) = data := by decide

@[simp] theorem lowNibble_nibbles : ∀ hi lo : BitVec 4, lowNibble (nibbles hi lo) = lo := by decide

@[simp] theorem highNibble_nibbles : ∀ hi lo : BitVec 4, highNibble (nibbles hi lo) = hi := by decide

@[simp] theorem nibbles_high_low : ∀ b : Byte, nibbles (highNibble b) (lowNibble b) = b := by decide

/-- The op is one of its four codes (R51). -/
theorem reqOp_cases (w : ReqWord) : reqOp w = 0b00#2 ∨ reqOp w = 0b01#2 ∨ reqOp w = 0b10#2 ∨ reqOp w = 0b11#2 := by
  generalize reqOp w = op
  revert op
  decide

theorem decode_of_op_enc {w : ReqWord} (h : reqOp w = 0b00#2) :
    decode w = .enc (highNibble (reqData w)) (lowNibble (reqData w)) := by simp [decode, h]

theorem decode_of_op_dec {w : ReqWord} (h : reqOp w = 0b01#2) : decode w = .dec (reqData w) := by simp [decode, h]

theorem decode_of_op_lut {w : ReqWord} (h : reqOp w = 0b10#2) :
    decode w = .lut (highNibble (reqData w)) (lowNibble (reqData w)) := by simp [decode, h]

theorem decode_of_op_reserved {w : ReqWord} (h : reqOp w = 0b11#2) : decode w = .reserved (reqData w) := by
  simp [decode, h]

end Sys2Proof
end

