-- ==== Sys2Proof/Laws/State.lean ====
section
/-! SUPPORT. One lemma for each field and each operation that updates the state, true by unfolding once. -/

namespace Sys2Proof.Machine

section Advance
variable (a : Option (RespWord × Dest)) (s : State)

@[simp] theorem advance_rom : (advance a s).rom = s.rom := rfl
@[simp] theorem advance_pipe :
    (advance a s).pipe = nextPipe s (a.map Prod.fst) := rfl
@[simp] theorem advance_resetSeen : (advance a s).resetSeen = s.resetSeen := rfl
@[simp] theorem advance_respValid : (advance a s).respValid = respValid s a.isSome := rfl
@[simp] theorem advance_outputs : (advance a s).outputs = shown s (a.map Prod.fst) := rfl
@[simp] theorem advance_product : (advance a s).product = s.product := rfl
@[simp] theorem advance_host :
    (advance a s).host = (s.host.expect (a.map Prod.snd)).take (shown s (a.map Prod.fst)) := rfl
@[simp] theorem advance_script : (advance a s).script = s.script := rfl
@[simp] theorem advance_faults : (advance a s).faults = s.faults := rfl
@[simp] theorem advance_cycle : (advance a s).cycle = s.cycle + 1 := rfl

@[simp] theorem transact_eq_advance (r : Resp) (d : Dest) : transact r d s = advance (some (r.word, d)) s := rfl
@[simp] theorem idleCycle_eq_advance : idleCycle s = advance none s := rfl

end Advance

section Reset
variable (s : State)

@[simp] theorem resetCycle_rom : (resetCycle s).rom = s.rom := rfl
@[simp] theorem resetCycle_pipe : (resetCycle s).pipe = emptyPipe (s.cycle + 1) s.pipe.length := rfl
@[simp] theorem resetCycle_resetSeen : (resetCycle s).resetSeen = true := rfl
@[simp] theorem resetCycle_respValid : (resetCycle s).respValid = respValid s false := rfl
@[simp] theorem resetCycle_outputs : (resetCycle s).outputs = shown s none := rfl
@[simp] theorem resetCycle_product : (resetCycle s).product = s.product := rfl
@[simp] theorem resetCycle_host :
    (resetCycle s).host = { s.host.take (shown s none) with awaiting := [] } := rfl
@[simp] theorem resetCycle_script : (resetCycle s).script = s.script := rfl
@[simp] theorem resetCycle_faults : (resetCycle s).faults = s.faults := rfl
@[simp] theorem resetCycle_cycle : (resetCycle s).cycle = s.cycle + 1 := rfl

end Reset

section Faults
variable (f : Fault) (s : State)

@[simp] theorem recordFault_rom : (recordFault f s).rom = s.rom := rfl
@[simp] theorem recordFault_pipe : (recordFault f s).pipe = s.pipe := rfl
@[simp] theorem recordFault_resetSeen : (recordFault f s).resetSeen = s.resetSeen := rfl
@[simp] theorem recordFault_respValid : (recordFault f s).respValid = s.respValid := rfl
@[simp] theorem recordFault_outputs : (recordFault f s).outputs = s.outputs := rfl
@[simp] theorem recordFault_product : (recordFault f s).product = s.product := rfl
@[simp] theorem recordFault_host : (recordFault f s).host = s.host := rfl
@[simp] theorem recordFault_script : (recordFault f s).script = s.script := rfl
@[simp] theorem recordFault_faults :
    (recordFault f s).faults = s.faults ++ [{ fault := f, cycle := s.cycle }] := rfl
@[simp] theorem recordFault_cycle : (recordFault f s).cycle = s.cycle := rfl

end Faults

section Reads
variable (c : HostCycle) (s : State)

@[simp] theorem recordReads_rom : (recordReads c s).rom = s.rom := by unfold recordReads; split <;> rfl
@[simp] theorem recordReads_pipe : (recordReads c s).pipe = s.pipe := by unfold recordReads; split <;> rfl
@[simp] theorem recordReads_resetSeen : (recordReads c s).resetSeen = s.resetSeen := by
  unfold recordReads; split <;> rfl
@[simp] theorem recordReads_respValid : (recordReads c s).respValid = s.respValid := by
  unfold recordReads; split <;> rfl
@[simp] theorem recordReads_outputs : (recordReads c s).outputs = s.outputs := by
  unfold recordReads; split <;> rfl
@[simp] theorem recordReads_product : (recordReads c s).product = s.product := by
  unfold recordReads; split <;> rfl
@[simp] theorem recordReads_host : (recordReads c s).host = s.host := by unfold recordReads; split <;> rfl
@[simp] theorem recordReads_script : (recordReads c s).script = s.script := by
  unfold recordReads; split <;> rfl
@[simp] theorem recordReads_cycle : (recordReads c s).cycle = s.cycle := by unfold recordReads; split <;> rfl

end Reads

@[simp] theorem present_script (w : ReqWord) (s : State) :
    (s.present w).script = .cycle (presentCycle w) :: s.script := rfl

end Sys2Proof.Machine
end

