-- ==== Sys2Proof/Laws/Ops.lean ====
section
/-! SUPPORT. What each shared operation can do, said once: the outputs, the pipeline's shift, the host's taking of a
response, the fetch, exec and step. -/

namespace Sys2Proof.Machine

/-! ### The pipeline -/

theorem shiftPipe_length (pipe : List Stage) (st : Stage) : (shiftPipe pipe st).length = pipe.length := by
  simp [shiftPipe]

@[simp] theorem shiftPipe_nil (st : Stage) : shiftPipe [] st = [] := rfl

theorem shiftPipe_of_ne_nil {pipe : List Stage} (h : pipe ≠ []) (st : Stage) :
    shiftPipe pipe st = st :: pipe.dropLast := by
  cases pipe with
  | nil => exact absurd rfl h
  | cons a l => rfl

theorem emptyPipe_length (edge latency : Nat) : (emptyPipe edge latency).length = latency := by
  simp [emptyPipe]

theorem unspecifiedPipe_length (edge latency : Nat) : (unspecifiedPipe edge latency).length = latency := by
  simp [unspecifiedPipe]

/-- After a reset edge the pipeline shifts (R112). -/
theorem nextPipe_of_resetSeen {s : State} (h : s.resetSeen = true) (a : Option RespWord) :
    nextPipe s a = shiftPipe s.pipe (inputStage (s.cycle + 1) a) := by simp [nextPipe, h]

/-- Before it the pipeline is unspecified (R109). -/
theorem nextPipe_of_not_resetSeen {s : State} (h : s.resetSeen = false) (a : Option RespWord) :
    nextPipe s a = unspecifiedPipe (s.cycle + 1) s.pipe.length := by simp [nextPipe, h]

/-- No edge changes `LATENCY` (R21). -/
theorem nextPipe_length (s : State) (a : Option RespWord) : (nextPipe s a).length = s.pipe.length := by
  unfold nextPipe; split <;> simp [shiftPipe_length, unspecifiedPipe_length]

theorem nextPipe_of_nil {s : State} (h : s.pipe = []) (a : Option RespWord) : nextPipe s a = [] := by
  simpa [h] using nextPipe_length s a

theorem emptyPipe_pv {edge latency : Nat} {st : Stage} (h : st ∈ emptyPipe edge latency) : st.pv = false := by
  simp only [emptyPipe, List.mem_map] at h
  obtain ⟨_, _, rfl⟩ := h
  rfl

theorem mem_shiftPipe {pipe : List Stage} {st x : Stage} (h : x ∈ shiftPipe pipe st) : x = st ∨ x ∈ pipe := by
  simpa using List.mem_of_mem_dropLast h

/-- What a pipeline holds before the first reset edge is in no sense in flight (R109). -/
theorem inFlight_of_not_resetSeen {s : State} (h : s.resetSeen = false) : s.inFlight = [] := by
  simp [State.inFlight, h]

theorem inFlight_of_resetSeen {s : State} (h : s.resetSeen = true) :
    s.inFlight = (s.pipe.reverse.filter Stage.pv).map fun st => Resp.ofWord st.pd := by simp [State.inFlight, h]

/-- Nothing is in flight in a pipeline just reset. -/
theorem inFlight_of_emptyPipe {s : State} {edge latency : Nat} (h : s.pipe = emptyPipe edge latency) :
    s.inFlight = [] := by
  have : (emptyPipe edge latency).reverse.filter Stage.pv = [] := by
    rw [List.filter_eq_nil_iff]
    intro st hst
    simp [emptyPipe_pv (List.mem_reverse.mp hst)]
  simp [State.inFlight, h, this]

/-! ### The outputs -/

theorem shownWord_combinational {s : State} (h : s.pipe = []) (a : Option RespWord) : shownWord s a = a := by
  simp [shownWord, h]

theorem shownWord_pipelined {s : State} {front : List Stage} {last : Stage} (h : s.pipe = front ++ [last])
    (a : Option RespWord) : shownWord s a = if s.resetSeen && last.pv then some last.pd else none := by
  simp [shownWord, h]

theorem respValid_combinational {s : State} (h : s.pipe = []) (v : Bool) : respValid s v = v := by
  simp [respValid, h]

theorem respValid_pipelined {s : State} {front : List Stage} {last : Stage} (h : s.pipe = front ++ [last])
    (v : Bool) : respValid s v = last.pv := by
  simp [respValid, h]

/-- The fields are specified just where a response is shown. -/
theorem fieldsSpecified_eq_isSome (s : State) (v : Bool) (w : RespWord) :
    fieldsSpecified s v = (shownWord s (if v then some w else none)).isSome := by
  obtain hp | ⟨front, last, hp⟩ := List.eq_nil_or_concat s.pipe
  · cases v <;> simp [fieldsSpecified, respValid, shownWord, hp]
  · cases hr : s.resetSeen <;> cases h : last.pv <;> simp [fieldsSpecified, respValid, shownWord, hp, hr, h]

/-- But for the cycles before the first reset edge, `resp_valid` is whether a response is shown. -/
theorem respValid_eq_isSome {s : State} (h : s.pipe = [] ∨ s.resetSeen = true) (a : Option RespWord) :
    respValid s a.isSome = (shownWord s a).isSome := by
  obtain hp | ⟨front, last, hp⟩ := List.eq_nil_or_concat s.pipe
  · simp [respValid, shownWord, hp]
  · have hr : s.resetSeen = true := by simpa [hp] using h
    cases h : last.pv <;> simp [respValid, shownWord, hp, hr, h]

/-- Before the first reset edge nothing is shown, whatever stage L holds (R114). -/
theorem shownWord_of_not_resetSeen {s : State} (hp : s.pipe ≠ []) (h : s.resetSeen = false)
    (a : Option RespWord) : shownWord s a = none := by
  obtain hn | ⟨front, last, hl⟩ := List.eq_nil_or_concat s.pipe
  · exact absurd hn hp
  · simp [shownWord, hl, h]

/-! ### The host -/

@[simp] theorem take_none (h : HostSide) : h.take none = h := by
  unfold HostSide.take
  split <;> simp_all

theorem take_unexpected {h : HostSide} (hn : h.awaiting = []) (out : Option Resp) : h.take out = h := by
  unfold HostSide.take
  split <;> simp_all

theorem take_expected {h : HostSide} {d : Dest} {ds : List Dest} (hn : h.awaiting = d :: ds) (r : Resp) :
    h.take (some r) = ({ h with awaiting := ds, received := h.received ++ [r] } : HostSide).deliver d r := by
  unfold HostSide.take
  split <;> simp_all

@[simp] theorem take_mk_nil (out : Option Resp) (held : Msg) (em : List Byte) (rc : List Resp) :
    HostSide.take out ⟨[], held, em, rc⟩ = ⟨[], held, em, rc⟩ := take_unexpected rfl out

@[simp] theorem take_mk_cons (r : Resp) (d : Dest) (ds : List Dest) (held : Msg) (em : List Byte) (rc : List Resp) :
    HostSide.take (some r) ⟨d :: ds, held, em, rc⟩ = HostSide.deliver d r ⟨ds, held, em, rc ++ [r]⟩ := rfl

@[simp] theorem deliver_awaiting (d : Dest) (r : Resp) (h : HostSide) :
    (h.deliver d r).awaiting = h.awaiting := by cases d <;> rfl

@[simp] theorem deliver_received (d : Dest) (r : Resp) (h : HostSide) :
    (h.deliver d r).received = h.received := by cases d <;> rfl

/-- What a host takes: nothing, or the response shown, for its oldest request. -/
theorem take_cases (h : HostSide) (out : Option Resp) :
    (h.take out = h ∧ (out = none ∨ h.awaiting = [])) ∨
      ∃ r d ds, out = some r ∧ h.awaiting = d :: ds ∧ (h.take out).awaiting = ds ∧
        (h.take out).received = h.received ++ [r] := by
  cases out with
  | none => exact .inl ⟨take_none h, .inl rfl⟩
  | some r =>
    cases ha : h.awaiting with
    | nil => exact .inl ⟨take_unexpected ha _, .inr rfl⟩
    | cons d ds => exact .inr ⟨r, d, ds, rfl, rfl, by simp [take_expected ha], by simp [take_expected ha]⟩

/-! ### exec and step -/

@[simp] theorem exec_enc (ig : BitVec 4) (n : Msg) (s : State) :
    exec (.enc ig n) s = .next (transact (encResp s.rom n) .plain s) := rfl
@[simp] theorem exec_dec (cw : Code) (s : State) :
    exec (.dec cw) s = .next (transact (decResp s.rom cw) .plain s) := rfl
@[simp] theorem exec_lut (ig : BitVec 4) (syn : Syn) (s : State) :
    exec (.lut ig syn) s = .next (transact (lutResp s.rom syn) .plain s) := rfl
@[simp] theorem exec_reserved (ig : Byte) (s : State) :
    exec (.reserved ig) s = .next (transact reservedResp .plain (recordFault .illegalOp s)) := rfl
@[simp] theorem exec_encb (b : Byte) (s : State) :
    exec (.encb b) s =
      .next (transact (encResp s.rom (highNibble b)) .emit (transact (encResp s.rom (lowNibble b)) .emit s)) := rfl
@[simp] theorem exec_decb (c0 c1 : Code) (s : State) :
    exec (.decb c0 c1) s =
      .next (transact (decResp s.rom c1) .high (transact (decResp s.rom c0) .low s)) := rfl

theorem exec_gf2Matmul (a b : BitMatrix) (s : State) :
    exec (.gf2Matmul a b) s = match matmul? a b with
      | .ok p => .next { s with product := some p }
      | .error v => .refused (.contractViolation v) := rfl

@[simp] theorem run_zero (s : State) : run 0 s = .next s := rfl

theorem run_succ (k : Nat) (s : State) :
    run (k + 1) s = match step s with
      | .next s' => run k s'
      | .fault r => .fault r
      | .refused r => .refused r := rfl

/-! ### Elaboration -/

@[simp] theorem scriptDefect_nil : scriptDefect [] = none := rfl

@[simp] theorem scriptDefect_cycle (c : HostCycle) (rest : List HostEvent) :
    scriptDefect (.cycle c :: rest) = scriptDefect rest := rfl

theorem scriptDefect_instr {i : Instr} (h : i.WellFormed) (rest : List HostEvent) :
    scriptDefect (.instr i :: rest) = scriptDefect rest := by
  simp [scriptDefect, HostEvent.defect, show i.defect = none from h]

/-- A script of cycles in front asks for no standalone instance. -/
@[simp] theorem scriptDefect_cycles (cs : List HostCycle) (rest : List HostEvent) :
    scriptDefect (cs.map .cycle ++ rest) = scriptDefect rest := by
  induction cs with
  | nil => rfl
  | cons c cs ih => exact ih

theorem scriptDefect_eq_none {script : List HostEvent} :
    scriptDefect script = none ↔ ∀ e ∈ script, e.defect = none := List.findSome?_eq_none_iff

/-- An event of a script that elaborates is not refused itself. -/
theorem wellFormed_of_elaborates {s : State} (h : s.Elaborates) {i : Instr} {rest : List HostEvent}
    (hs : s.script = .instr i :: rest) : i.WellFormed :=
  scriptDefect_eq_none.mp h (.instr i) (by simp [hs])

/-- What is refused at elaboration stops the run before anything runs (R98). -/
theorem step_of_scriptDefect {s : State} {v : Violation} (h : scriptDefect s.script = some v) :
    step s = .refused (.contractViolation v) := by simp [step, fetch, h]

/-- Everything a step that goes on can be. -/
theorem step_cases {s t : State} (h : step s = .next t) :
    (∃ s', fetch s = .idle s' ∧ t = idleCycle s') ∨ (∃ s', fetch s = .reset s' ∧ t = resetCycle s') ∨
      ∃ i s', fetch s = .run i s' ∧ exec i s' = .next t := by
  unfold step at h
  split at h
  · cases h
  · next s' hf => exact .inl ⟨s', hf, by cases h; rfl⟩
  · next s' hf => exact .inr (.inl ⟨s', hf, by cases h; rfl⟩)
  · next i s' hf => exact .inr (.inr ⟨i, s', hf, h⟩)

/-- Everything an instruction that goes on can be: one request, the reserved one, two requests, or a product. -/
theorem exec_cases {i : Instr} {s t : State} (h : exec i s = .next t) :
    (∃ r d, t = transact r d s ∧ answers s.rom i = [r] ∧ r.status ≠ .illegalOp) ∨
      (t = transact reservedResp .plain (recordFault .illegalOp s) ∧ answers s.rom i = [reservedResp]) ∨
      (∃ r₀ d₀ r₁ d₁, t = transact r₁ d₁ (transact r₀ d₀ s) ∧ answers s.rom i = [r₀, r₁] ∧
        r₀.status ≠ .illegalOp ∧ r₁.status ≠ .illegalOp) ∨
      ∃ p, t = { s with product := some p } ∧ answers s.rom i = [] := by
  have hs : ∀ a : Action, a.status ≠ .illegalOp := by intro a; cases a <;> simp [Action.status]
  have he : (Status.ok : Status) ≠ .illegalOp := by decide
  cases i with
  | enc ig n => cases h; exact .inl ⟨_, _, rfl, rfl, he⟩
  | dec cw => cases h; exact .inl ⟨_, _, rfl, rfl, hs _⟩
  | lut ig syn => cases h; exact .inl ⟨_, _, rfl, rfl, hs _⟩
  | reserved ig => cases h; exact .inr (.inl ⟨rfl, rfl⟩)
  | encb b => cases h; exact .inr (.inr (.inl ⟨_, _, _, _, rfl, rfl, he, he⟩))
  | decb c₀ c₁ => cases h; exact .inr (.inr (.inl ⟨_, _, _, _, rfl, rfl, hs _, hs _⟩))
  | gf2Matmul a b =>
    rw [exec_gf2Matmul] at h
    split at h
    · next p _ => cases h; exact .inr (.inr (.inr ⟨p, rfl, rfl⟩))
    · cases h

/-- What the fetch of a script that elaborates leaves of the state: at most the script and the fault record differ. -/
theorem fetch_cases {s : State} (he : s.Elaborates) :
    (s.script = [] ∧ fetch s = .idle s) ∨
      (∃ i rest, s.script = .instr i :: rest ∧ fetch s = .run i { s with script := rest }) ∨
      ∃ c rest, s.script = .cycle c :: rest ∧
        ((c.rst = true ∧ s.pipe ≠ [] ∧ fetch s = .reset (recordReads c { s with script := rest })) ∨
          ((c.rst = false ∨ s.pipe = []) ∧ c.reqValid = true ∧
            fetch s = .run (decode c.req) (recordReads c { s with script := rest })) ∨
          ((c.rst = false ∨ s.pipe = []) ∧ c.reqValid = false ∧
            fetch s = .idle (recordReads c { s with script := rest }))) := by
  simp only [fetch, he]
  cases hs : s.script with
  | nil => exact .inl ⟨rfl, rfl⟩
  | cons e rest =>
    cases e with
    | instr i => exact .inr (.inl ⟨i, rest, rfl, rfl⟩)
    | cycle c =>
      refine .inr (.inr ⟨c, rest, rfl, ?_⟩)
      by_cases hp : s.pipe = []
      · cases hv : c.reqValid <;> simp [hp, hv]
      · cases hr : c.rst <;> cases hv : c.reqValid <;> simp [hp, hr, hv]

/-- A step that goes on is of a script that elaborates. -/
theorem elaborates_of_step {s t : State} (h : step s = .next t) : s.Elaborates := by
  cases hd : scriptDefect s.script with
  | none => exact hd
  | some v => rw [step_of_scriptDefect hd] at h; cases h

/-- A property that every operation of the machine keeps, every step keeps: the induction of all invariants. -/
theorem step_preserves {P : State → Prop}
    (script : ∀ s rest, P s → P { s with script := rest })
    (reads : ∀ c s, P s → P (recordReads c s))
    (idle : ∀ s, P s → P (idleCycle s))
    (reset : ∀ s, s.pipe ≠ [] → P s → P (resetCycle s))
    (request : ∀ r d s, r.status ≠ .illegalOp → P s → P (transact r d s))
    (reserved : ∀ s, P s → P (transact reservedResp .plain (recordFault .illegalOp s)))
    (product : ∀ p s, P s → P { s with product := some p })
    {s t : State} (h : step s = .next t) (hs : P s) : P t := by
  have run : ∀ {i s'}, P s' → exec i s' = .next t → P t := by
    intro i s' hp hx
    obtain ⟨r, d, rfl, -, hr⟩ | ⟨rfl, -⟩ | ⟨r₀, d₀, r₁, d₁, rfl, -, h₀, h₁⟩ | ⟨p, rfl, -⟩ := exec_cases hx
    · exact request _ _ _ hr hp
    · exact reserved _ hp
    · exact request _ _ _ h₁ (request _ _ _ h₀ hp)
    · exact product _ _ hp
  rcases fetch_cases (elaborates_of_step h) with ⟨-, hf⟩ | ⟨i, rest, -, hf⟩ | ⟨c, rest, -, ⟨-, hn, hf⟩ | ⟨-, -, hf⟩ | ⟨-, -, hf⟩⟩ <;>
    simp only [step, hf] at h
  · cases h; exact idle _ hs
  · exact run (script _ _ hs) h
  · cases h; exact reset _ (by simpa using hn) (reads _ _ (script _ _ hs))
  · exact run (reads _ _ (script _ _ hs)) h
  · cases h; exact idle _ (reads _ _ (script _ _ hs))

end Sys2Proof.Machine
end

