-- ==== Sys2Proof/Laws/PerInstr.lean ====
section
/-! SUPPORT. A statement made of every instruction, one lemma for each constructor. -/

namespace Sys2Proof.Laws

/-- Whatever an instruction's request words are, the wrapper reads a well-formed request from each, and there are at
most two of them. -/
def EncodedWords.Statement (i : Instr) : Prop := (∀ w ∈ encode i, (decode w).WellFormed) ∧ (encode i).length ≤ 2

theorem decode_wellFormed (w : ReqWord) : (decode w).WellFormed := by
  unfold decode
  split
  · rfl
  · split
    · rfl
    · split <;> rfl

theorem EncodedWords.enc (ignored : BitVec 4) (n : Msg) : EncodedWords.Statement (.enc ignored n) :=
  ⟨fun w _ => decode_wellFormed w, by simp [encode]⟩
theorem EncodedWords.dec (cw : Code) : EncodedWords.Statement (.dec cw) :=
  ⟨fun w _ => decode_wellFormed w, by simp [encode]⟩
theorem EncodedWords.lut (ignored : BitVec 4) (s : Syn) : EncodedWords.Statement (.lut ignored s) :=
  ⟨fun w _ => decode_wellFormed w, by simp [encode]⟩
theorem EncodedWords.reserved (ignored : Byte) : EncodedWords.Statement (.reserved ignored) :=
  ⟨fun w _ => decode_wellFormed w, by simp [encode]⟩
theorem EncodedWords.gf2Matmul (a b : BitMatrix) : EncodedWords.Statement (.gf2Matmul a b) :=
  ⟨fun w _ => decode_wellFormed w, by simp [encode]⟩
theorem EncodedWords.encb (b : Byte) : EncodedWords.Statement (.encb b) :=
  ⟨fun w _ => decode_wellFormed w, by simp [encode]⟩
theorem EncodedWords.decb (c0 c1 : Code) : EncodedWords.Statement (.decb c0 c1) :=
  ⟨fun w _ => decode_wellFormed w, by simp [encode]⟩

end Sys2Proof.Laws
end

