-- ==== Sys2Proof/Tests/Slice0.lean ====
section
/-! SUPPORT. Tests against the spec's own examples and vectors (each names its source), and a witness for the
hypotheses of every statement that has some. -/

namespace Sys2Proof.Tests

open Sys2Proof Sys2Proof.Machine

/-- The reset state with a given LATENCY and host script. -/
def start (latency : Nat) (script : List HostEvent) : State := { State.resetAt latency with script := script }

/-- A cycle with rst = 0 that presents a request. -/
def present (w : ReqWord) : HostEvent := .cycle (presentCycle w)

/-- What one step from a state shows in a field of the next state. -/
def after {α : Type} (f : State → α) (s : State) : Option α :=
  match step s with
  | .next t => some (f t)
  | .fault _ => none
  | .refused _ => none

/-! ### WellFormed: each check refuses an ill-formed term -/

/-- spec/95 section 2.2, row 0,4,8. -/
theorem test_wf_refuses_zero_rows : (Instr.gf2Matmul ⟨0, 4, 0⟩ ⟨4, 8, gFlat⟩).defect = some .zeroDimension := by decide
theorem test_wf_refuses_zero_inner : (Instr.gf2Matmul ⟨1, 0, 0⟩ ⟨0, 8, 0⟩).defect = some .zeroDimension := by decide
theorem test_wf_refuses_zero_cols : (Instr.gf2Matmul ⟨1, 4, 0⟩ ⟨4, 0, 0⟩).defect = some .zeroDimension := by decide
/-- spec/95 section 2.2, "1,4,8 with b of 8×4". -/
theorem test_wf_refuses_mismatch : (Instr.gf2Matmul ⟨1, 4, 0⟩ ⟨8, 4, htFlat⟩).defect = some .dimensionMismatch := by
  decide
theorem test_wf_accepts_a_product : (Instr.gf2Matmul ⟨1, 4, 5⟩ ⟨4, 8, gFlat⟩).WellFormed := by decide

/-! ### Decode: words written out from spec/30 R51 -/

theorem test_decode_enc : decode 0b00_0000_1011#10 = .enc 0x0 0xB := by decide
theorem test_decode_enc_ignored : decode 0b00_1111_0101#10 = .enc 0xF 0x5 := by decide
theorem test_decode_dec : decode 0b01_0100_1010#10 = .dec 0x4A := by decide
theorem test_decode_lut : decode 0b10_1111_0011#10 = .lut 0xF 0x3 := by decide
theorem test_decode_reserved : decode 0b11_0101_0101#10 = .reserved 0x55 := by decide
theorem test_table_word_dec : decodeTableWord 16 0x14A = some (.dec 0x4A) := by decide
theorem test_table_word_too_wide : decodeTableWord 16 0x400 = none := by decide
theorem test_bytes_rejected : decodeBytes [0x4A] = .error .notTwoBytes ∧ decodeBytes [0x4A, 0x05] = .error .bitAboveRequest := by
  decide
/-- R58: ENCB's expansion. -/
theorem test_encode_encb : encode (.encb 0xAB) = [0x00B#10, 0x00A#10] := by decide
/-- R58: DECB's expansion. -/
theorem test_encode_decb : encode (.decb 0x4A 0xAA) = [0x14A#10, 0x1AA#10] := by decide

/-! ### Primitives and products (spec/95 sections 2.1, 2.2) -/

theorem test_bvGet_out_of_range : bvGet? 0b01010101#8 8 = .error .indexOutOfRange := by decide
theorem test_bvSet : bvSet? 0b0000#4 3 = .ok 0b1000#4 := by decide
theorem test_bvClr : bvClr? 0b1111#4 0 = .ok 0b1110#4 := by decide
theorem test_bvXor : bvXor? 0b0010#4 1 true = .ok 0b0000#4 := by decide
theorem test_bmGet_aliased_index_refused : bmGet? (R := 4) (C := 8) gFlat 0 8 = .error .indexOutOfRange := by decide
theorem test_fromByte_low_bits : fromByte? 0xAB 4 = .ok 0b1011#4 := by decide
theorem test_fromByte_refusals : fromByte? 0x01 9 = .error .fromByteLength ∧ fromByte? 0x01 0 = .error .zeroDimension := by
  decide
theorem test_toByte_reads_row_zero_only : toByte (R := 2) (C := 4) 0b11110001#8 = 0x01 := by decide
theorem test_toByte_reads_eight_columns : toByte (R := 1) (C := 10) 0b1111111111#10 = 0xFF := by decide
/-- R66, R68: a matrix without rows has no row 0 to read; spec/95 section 2.2, rows 0,4,8 and 1,4,8. -/
theorem test_checked_forms_refuse : toByte? (R := 0) (C := 8) 0#0 = .error .indexOutOfRange ∧
    matmulWired? 0 4 8 0#0 gFlat = .error .zeroDimension := by decide
theorem test_checked_product : matmulWired? 1 4 8 0x5#4 gFlat = .ok 0x55#8 := by decide
theorem test_matmul_2_3_2 : matmul 2 3 2 0x3D#6 0x3B#6 = 0x8#4 := by decide
theorem test_matmul_outer_product : matmul 3 1 2 0x5#3 0x3#2 = 0x33#6 := by decide
theorem test_matmul_even_is_zero : matmul 1 4 1 0xF#4 0xF#4 = 0x0#1 := by decide

/-! ### The instructions, one step each -/

/-- spec/95 section 2.3, REQ 0x00B; the example of R79. -/
theorem test_enc : after State.outputs (start 0 [present 0x00B]) = some (some (Resp.ofWord 0x09600)) := by decide
/-- R79's corner case: REQ 0x0F5 as 0x005. -/
theorem test_enc_ignored_bits : after State.outputs (start 0 [present 0x0F5]) = some (some (Resp.ofWord 0x0AA00)) := by
  decide
/-- The example of R90, REQ 0x14A. -/
theorem test_dec_corrected : after State.outputs (start 0 [present 0x14A]) = some (some (Resp.ofWord 0x016F0)) := by decide
/-- spec/95 P3 line 1, a double error. -/
theorem test_dec_uncorrectable : after State.outputs (start 0 [present 0x156]) = some (some (Resp.ofWord 0x00D18)) := by
  decide
/-- The example of R83, with ignored bits set (spec/95 section 2.4). -/
theorem test_lut_err : after State.outputs (start 0 [present 0x2F3]) = some (some (Resp.ofWord 0x00118)) := by decide
/-- spec/95 section 2.4, REQ 0x201. -/
theorem test_lut_position : after State.outputs (start 0 [present 0x201]) = some (some (Resp.ofWord 0x0008C)) := by decide
/-- spec/95 section 2.8, REQ 0x3FF. -/
theorem test_reserved : after State.outputs (start 0 [present 0x3FF]) = some (some (Resp.ofWord 0x00180)) := by decide
theorem test_reserved_fault : after State.faults (start 0 [present 0x3FF]) = some [⟨.illegalOp, 0⟩] := by decide
/-- spec/95 section 2.2, row 1,4,8 with a = 0x5. -/
theorem test_gf2Matmul : after State.product (start 0 [.instr (.gf2Matmul ⟨1, 4, 0x5⟩ ⟨4, 8, 0x78B4D2E1⟩)]) =
    some (some ⟨1, 8, 0x55⟩) := by decide
/-- spec/95 section 2.2, "refuse DimensionMismatch". -/
theorem test_gf2Matmul_refused :
    exec (.gf2Matmul ⟨1, 4, 0x5⟩ ⟨8, 4, 0x84217BDE⟩) State.reset = .refused (.contractViolation .dimensionMismatch) := rfl
/-- R98 item 1: a refusal at elaboration comes before the request in front of it. -/
theorem test_refusal_comes_before_anything_runs :
    step (start 0 [present 0x005, .instr (.gf2Matmul ⟨1, 4, 0x5⟩ ⟨8, 4, 0x84217BDE⟩)]) =
      .refused (.contractViolation .dimensionMismatch) := rfl
/-- spec/95 W10 and P1. -/
theorem test_encb : after (fun t => t.host.emitted) (start 0 [.instr (.encb 0xAB)]) = some [0x4B, 0xAA] := by decide
/-- spec/95 P2. -/
theorem test_decb : after (fun t => t.host.emitted) (start 0 [.instr (.decb 0x4A 0xAA)]) = some [0xAB] := by decide

/-! ### Cycles (spec/95 section 2.9) -/

/-- A pipeline of two stages as before cycle 3 of the table, and the response shown in that cycle. -/
def cycleThree : State :=
  { start 2 [] with pipe := [⟨true, respFn Rom.wired 0x154⟩, ⟨true, respFn Rom.wired 0x005⟩] }

theorem test_pipeline_shows_the_oldest : after State.outputs cycleThree = some (some ⟨0x55, .ok, 0, 0⟩) := by decide
theorem test_pipeline_shifts : after (fun t => t.pipe.map Stage.pv) cycleThree = some [false, true] := by decide
/-- R114: reading while resp_valid = 0 is a fault; while it is 1, none. -/
theorem test_read_unspecified :
    after State.faults (start 2 [.cycle ⟨false, true, 0x005, [.data, .syn]⟩]) =
      some [⟨.readUnspecified .data, 0⟩, ⟨.readUnspecified .syn, 0⟩] := by decide
theorem test_read_valid : after State.faults (start 0 [.cycle ⟨false, true, 0x005, [.data]⟩]) = some [] := by decide
/-- R108: a reset edge clears the valid bits and drops the request, the reserved one too. -/
theorem test_reset_edge : after (fun t => (t.pipe.map Stage.pv, t.faults))
    { cycleThree with script := [.cycle ⟨true, true, 0x300, []⟩] } = some ([false, false], []) := by decide

/-- R109, R114, cycle 0 of spec/95 section 2.9: before the first reset edge resp_valid is whatever pv[2] is, and a read
of a response field is a fault even so. -/
theorem test_power_up_resp_valid : after State.respValid (State.powerUp 2) = some (Config.freePv 0 2) := rfl
theorem test_power_up_read : after State.faults
    { cycleThree with resetSeen := false, script := [.cycle ⟨true, false, 0, [.data]⟩] } =
      some [⟨.readUnspecified .data, 0⟩] := by decide

/-! ### The written form (R58) -/

theorem test_assemble_enc : assembleLine ['E', 'N', 'C', ' ', '0', 'x', 'B', ' ', ';', 'c'] = .ok (some (.enc 0 0xB)) := by
  decide
theorem test_assemble_refuses_enc_16 : assembleLine ['E', 'N', 'C', ' ', '1', '6'] = .error .outOfRange := by decide
theorem test_assemble_decb : assembleLine ['D', 'E', 'C', 'B', ' ', '7', '4', ',', ' ', '0', 'b', '1', '1'] =
    .ok (some (.decb 0x4A 0x03)) := by decide
theorem test_assemble_refuses_encb_256 : assembleLine ['E', 'N', 'C', 'B', ' ', '2', '5', '6'] = .error .outOfRange := by
  decide
theorem test_assemble_raw : assembleLine ['.', 'r', 'e', 'q', ' ', '0', 'x', '3', 'f', 'F'] = .ok (some (.reserved 0xFF)) := by
  decide
/-- The example of R79. -/
theorem test_write_response : writeResp ⟨0x4B, .ok, 0, 0⟩ = "-> data=0x4B status=OK syn=0x0 pos=0".toList := by decide

/-! ### Witnesses: the hypotheses of each statement can be met, clause by clause -/

theorem witness_AssemblerKeepsOperandRanges :
    immediate ['1', '5'] = some 15 ∧ immediate ['1', '6'] = some 16 ∧ immediate ['2', '5', '5'] = some 255 ∧
    immediate ['0', 'x', '1', '0', '0'] = some 256 ∧ immediate ['1', '0', '2', '3'] = some 1023 ∧
    immediate ['1', '0', '2', '4'] = some 1024 := by decide
theorem witness_BitPrimitivesActOnOneBitInRange : (4 : Nat) ≤ 4 ∧ (3 : Nat) < 4 := by decide
theorem witness_MatrixElementsAreRowMajorAndChecked :
    ¬ (0 < 4 ∧ 8 < 8) ∧ flatIndex 8 0 8 < 4 * 8 ∧ (3 < 4 ∧ 7 < 8) := by decide
theorem witness_BytesAndRowVectorsConvert : 8 < 9 ∧ (1 ≤ 8 ∧ 8 ≤ 8 ∧ 7 < 8) ∧ (1 ≤ 2 ∧ 7 < 8) := by decide
theorem witness_ByteImageHoldsTheVectorLsbFirst : 7 < 8 ∧ 1 < (10 + 7) / 8 := by decide
theorem witness_ProductEntriesAreDotProductsModTwo : 0 < 1 ∧ 7 < 8 := by decide
theorem witness_ProductEntryDependsOnItsRowAndColumn :
    (∀ i < 2, bmGet (R := 2) (C := 2) 0x9#4 0 i = bmGet (R := 2) (C := 2) 0x1#4 0 i) ∧ (0x9#4 ≠ 0x1#4) ∧
    ∀ i < 2, bmGet (R := 2) (C := 2) 0x6#4 i 0 = bmGet (R := 2) (C := 2) 0xE#4 i 0 := by decide
theorem witness_DecoderOutputsFollowTheTable :
    lookup Rom.wired (syndrome Rom.wired 0x55) = .ok ∧ lookup Rom.wired (syndrome Rom.wired 0x56) = .err ∧
    lookup Rom.wired (syndrome Rom.wired 0x54) = .pos 0 ∧ lookup Rom.wired (syndrome Rom.wired 0x45) = .pos 4 ∧
    4 ≤ (4#3).toNat := by decide
theorem witness_CodeCorrectsOneAndDetectsTwoErrors : (6 : Pos) < 7 ∧ (5 : Pos) < 6 := by decide
theorem witness_EncCompletesWithItsCodeword :
    State.reset.rom = Rom.wired ∧ 0x0F5#10 &&& 0x300#10 = 0x000#10 := by decide
theorem witness_DecCompletesWithItsDecoding :
    State.reset.rom = Rom.wired ∧ 0x1FF#10 &&& 0x300#10 = 0x100#10 := by decide
theorem witness_LutCompletesWithItsEntry :
    (State.reset.rom = Rom.wired ∧ 0x20F#10 &&& 0x300#10 = 0x200#10) ∧
    lutTable[0] = .ok ∧ lutTable[15] = .err ∧ lutTable[14] = .pos 0 := by decide
theorem witness_ReservedOpAnswersIllegalOpAndRecordsTheFault : 0x355#10 &&& 0x300#10 = 0x300#10 := by decide
theorem witness_IgnoredRequestBitsDoNotMatter :
    (reqOp 0x0F5#10 = reqOp 0x005#10 ∧ reqOp 0x0F5#10 = 0b00#2 ∧
      (0x0F5#10).extractLsb' 0 4 = (0x005#10).extractLsb' 0 4) ∧
    (reqOp 0x2F3#10 = reqOp 0x203#10 ∧ reqOp 0x2F3#10 = 0b10#2 ∧
      (0x2F3#10).extractLsb' 0 4 = (0x203#10).extractLsb' 0 4) ∧
    reqOp 0x3FF#10 = reqOp 0x300#10 ∧ reqOp 0x3FF#10 = 0b11#2 := by decide
theorem witness_EveryRequestIsAnsweredByTheResponseFunction :
    (0x00B#10).extractLsb' 8 2 = 0b00#2 ∧ (0x14A#10).extractLsb' 8 2 = 0b01#2 ∧
    (0x203#10).extractLsb' 8 2 = 0b10#2 ∧ (0x3FF#10).extractLsb' 8 2 = 0b11#2 ∧
    State.reset.pipe = [] ∧ (State.resetAt 1).pipe ≠ [] ∧ (State.resetAt 1).resetSeen = true ∧
    State.reset.Elaborates ∧ (State.resetAt 1).Elaborates := by
  simp [State.Elaborates, State.reset, State.resetAt, emptyPipe, Config.referenceLatency]
theorem witness_StandaloneProductCompletes :
    let a : BitMatrix := ⟨2, 3, 0x3D⟩
    let b : BitMatrix := ⟨3, 2, 0x3B⟩
    1 ≤ a.rows ∧ 1 ≤ a.cols ∧ 1 ≤ b.cols ∧ a.cols = b.rows := by decide
theorem witness_StandaloneProductIsRefusedOnAViolation :
    (let a : BitMatrix := ⟨0, 4, 0⟩; a.rows = 0) ∧
    (let a : BitMatrix := ⟨1, 4, 5⟩
     let b : BitMatrix := ⟨8, 4, htFlat⟩
     1 ≤ a.rows ∧ 1 ≤ a.cols ∧ 1 ≤ b.rows ∧ 1 ≤ b.cols ∧ a.cols ≠ b.rows) := by decide
theorem witness_EncbCompletesAsTwoEncodings :
    State.reset.rom = Rom.wired ∧ State.reset.pipe = [] ∧ State.reset.host.awaiting = [] := by decide
theorem witness_DecbCompletesAsTwoDecodings :
    State.reset.rom = Rom.wired ∧ State.reset.pipe = [] ∧ State.reset.host.awaiting = [] := by decide
theorem witness_InstructionsLeaveTheRestUnchanged :
    (∃ t, exec (.enc 0 5) State.reset = .next t) ∧
    ∃ t, exec (.gf2Matmul ⟨1, 4, 5⟩ ⟨4, 8, gFlat⟩) State.reset = .next t := ⟨⟨_, rfl⟩, ⟨_, rfl⟩⟩
theorem witness_PlainRequestsEmitNothing :
    (∀ b, Instr.dec 0x55 ≠ .encb b) ∧ (∀ c0 c1, Instr.dec 0x55 ≠ .decb c0 c1) ∧
    (∀ d ∈ State.reset.host.awaiting, d = .plain) ∧ ∃ t, exec (.dec 0x55) State.reset = .next t :=
  ⟨by simp, by simp, by decide, ⟨_, rfl⟩⟩
theorem witness_StepRunsTheDecodedRequest :
    (start 0 [present 0x154]).Elaborates ∧
    (start 0 [present 0x154]).script = .cycle (presentCycle 0x154) :: [] ∧ (presentCycle 0x154).reqValid = true ∧
    ¬ (start 0 [present 0x154]).ResetsIn (presentCycle 0x154) ∧
    decodeBytes (requestBytes (presentCycle 0x154).req) = .ok (.dec 0x54) ∧
    (let s := start 0 [.instr (.gf2Matmul ⟨1, 4, 5⟩ ⟨4, 8, gFlat⟩)]
     s.Elaborates ∧ s.script = .instr (.gf2Matmul ⟨1, 4, 5⟩ ⟨4, 8, gFlat⟩) :: []) := by decide
theorem witness_NoTransactionWithoutReqValid :
    let c : HostCycle := ⟨false, false, 0x300, []⟩
    (start 2 [.cycle c]).script = .cycle c :: [] ∧ c.reqValid = false ∧ ¬ (start 2 [.cycle c]).ResetsIn c ∧
    (start 2 [.cycle c]).Elaborates ∧ (start 0 [.cycle c]).Elaborates ∧
    (start 2 []).pipe ≠ [] ∧ (start 2 []).resetSeen = true ∧ (start 0 []).pipe = [] := by
  simp [start, State.ResetsIn, State.Elaborates, State.resetAt, emptyPipe]
theorem witness_ResetEdgeClearsThePipeline :
    let c : HostCycle := ⟨true, true, 0x300, [.data]⟩
    ({ cycleThree with script := [.cycle c] } : State).ResetsIn c ∧
    ({ cycleThree with script := [.cycle c] } : State).Elaborates ∧ (start 0 [.cycle c]).pipe = [] := by
  simp [State.ResetsIn, State.Elaborates, cycleThree, start, State.resetAt, emptyPipe]
theorem witness_PowerUpNeedsOneResetEdge :
    let c : HostCycle := ⟨true, false, 0, []⟩
    ((2 : Nat) ≠ 0 ∧ c.rst = true ∧ c.reads = [] ∧ scriptDefect [] = none) ∧
    let s : State := { State.powerUp 2 with script := [.cycle ⟨false, true, 0x300, [.data, .pos]⟩] }
    s.pipe = [⟨Config.freePv 0 1, Config.freePd 0 1⟩] ++ [⟨Config.freePv 0 2, Config.freePd 0 2⟩] ∧
    s.resetSeen = false ∧ s.Elaborates ∧ s.script = .cycle ⟨false, true, 0x300, [.data, .pos]⟩ :: [] :=
  ⟨⟨by decide, rfl, rfl, rfl⟩, rfl, rfl, rfl, rfl⟩
/-- The invariant holds of the reset state, and a step goes on from it: with a request, with none, and at a reset
edge. -/
theorem witness_EveryStepKeepsTheInvariant :
    State.reset.Inv ∧ (∃ t, step State.reset = .next t) ∧
    (start 0 [present 0x154]).Inv ∧ (∃ t, step (start 0 [present 0x154]) = .next t) ∧
    (start 2 [.cycle ⟨true, false, 0, []⟩]).Inv ∧ ∃ t, step (start 2 [.cycle ⟨true, false, 0, []⟩]) = .next t :=
  ⟨by decide, ⟨_, rfl⟩, by decide, ⟨_, rfl⟩, by decide, ⟨_, rfl⟩⟩
theorem witness_IllegalStatusNeverGoesUnrecorded :
    (start 0 [present 0x300]).IllegalStatusRecorded ∧ ∃ t, step (start 0 [present 0x300]) = .next t :=
  ⟨by decide, ⟨_, rfl⟩⟩
theorem witness_RecordedFaultsAreNeverCleared :
    ¬ (recordFault .illegalOp State.reset).NoFault ∧ ∃ t, run 1 (recordFault .illegalOp State.reset) = .next t :=
  ⟨by decide, ⟨_, rfl⟩⟩
theorem witness_FaultsAreRecordedInExactlyTwoCases :
    newFaults (start 0 [present 0x300]) ≠ [] ∧
    newFaults (start 0 [.cycle ⟨false, false, 0, [.pos]⟩]) ≠ [] ∧ newFaults (start 0 [present 0x005]) = [] ∧
    ∃ t, step (start 0 [present 0x300]) = .next t := ⟨by decide, by decide, by decide, ⟨_, rfl⟩⟩
/-- The three cases: a script that elaborates, a product at its head; one refused at its head; one refused later. -/
theorem witness_OnlyContractViolationsStopAStep :
    let good : HostEvent := .instr (.gf2Matmul ⟨1, 4, 5⟩ ⟨4, 8, gFlat⟩)
    let bad : HostEvent := .instr (.gf2Matmul ⟨0, 4, 0⟩ ⟨4, 8, gFlat⟩)
    (start 0 [good, present 0x005]).Elaborates ∧
    scriptDefect (start 0 [bad]).script = some .zeroDimension ∧
    (∃ v, step (start 0 [bad]) = .refused (.contractViolation v)) ∧
    scriptDefect (start 2 [present 0x005, good, bad]).script = some .zeroDimension ∧
    ∃ v, step (start 2 [present 0x005, good, bad]) = .refused (.contractViolation v) :=
  ⟨by decide, by decide, ⟨_, rfl⟩, by decide, ⟨_, rfl⟩⟩
theorem witness_ResponseShowsExactlyLatencyCyclesLater :
    (let s := start 0 [present 0x154]
     s.resetSeen = true ∧ (∀ c ∈ [presentCycle 0x154], c.rst = false) ∧ ([] : List HostCycle).length = s.latency ∧ s.Elaborates ∧
       s.script = [presentCycle 0x154].map .cycle ++ []) ∧
    (let s := start 2 [present 0x154, present 0x3FF, present 0x005]
     s.resetSeen = true ∧ (∀ c ∈ [presentCycle 0x154, presentCycle 0x3FF, presentCycle 0x005], c.rst = false) ∧
       [presentCycle 0x3FF, presentCycle 0x005].length = s.latency ∧ s.Elaborates ∧
       s.script = [presentCycle 0x154, presentCycle 0x3FF, presentCycle 0x005].map .cycle ++ []) := by decide
theorem witness_ResponsesLeaveInRequestOrder :
    (∃ i s', fetch (start 2 [present 0x154]) = .run i s') ∧ (∃ s', fetch (start 2 []) = .idle s') ∧
    (∃ s', fetch (start 2 [.cycle ⟨true, false, 0, []⟩]) = .reset s') ∧ (start 2 [present 0x154]).Inv :=
  ⟨⟨_, _, rfl⟩, ⟨_, rfl⟩, ⟨_, rfl⟩, by decide⟩
theorem witness_ResponseDependsOnItsOwnRequestOnly :
    let s := start 1 [present 0x154, present 0x3FF]
    let s' := recordFault .illegalOp (start 1 [present 0x154, present 0x00B])
    s.rom = s'.rom ∧ s.latency = s'.latency ∧ s.resetSeen = true ∧ s'.resetSeen = true ∧
    [presentCycle 0x3FF].length = s.latency ∧ [presentCycle 0x00B].length = s'.latency ∧
    s.script = [presentCycle 0x154, presentCycle 0x3FF].map .cycle ++ [] ∧
    s'.script = [presentCycle 0x154, presentCycle 0x00B].map .cycle ++ [] ∧
    (∃ t, run 2 s = .next t) ∧ ∃ t, run 2 s' = .next t :=
  ⟨rfl, rfl, rfl, rfl, rfl, rfl, rfl, rfl, ⟨_, rfl⟩, ⟨_, rfl⟩⟩
theorem witness_EncbEmitsBothCodewordsAtAnyLatency :
    let s := start 3 [.instr (.encb 0xAB)]
    s.Inv ∧ s.host.awaiting = [] ∧ s.script = [.instr (.encb 0xAB)] := by decide
theorem witness_ByteSurvivesOneFlippedBitPerCodeword :
    let s := start 3 [.instr (.decb 0x4A 0xAA)]
    s.Inv ∧ s.host.awaiting = [] ∧
    s.script = [.instr (.decb (encodeUnit Rom.wired ((0xAB#8).extractLsb' 0 4) ^^^ BitVec.twoPow 8 (0#3).toNat)
      (encodeUnit Rom.wired ((0xAB#8).extractLsb' 4 4) ^^^ 0#8))] := by decide

end Sys2Proof.Tests
end

section
/-! PROOFS. The entries of the matrix product and the bits of what the fixed units give, each said once. -/

namespace Sys2Proof

/-! ### Sums modulo 2 -/

/-- A sum modulo 2 splits over XOR (R10). -/
theorem foldr_xor_map_xor {α : Type} (l : List α) (f g : α → Bool) :
    (l.map fun x => f x ^^ g x).foldr Bool.xor false =
      ((l.map f).foldr Bool.xor false ^^ (l.map g).foldr Bool.xor false) := by
  induction l with
  | nil => rfl
  | cons x l ih => simp [ih, Bool.xor_left_comm]

/-- A sum modulo 2 of zeros is zero. -/
theorem foldr_xor_map_zero {α : Type} {l : List α} {f : α → Bool} (hf : ∀ x ∈ l, f x = false) :
    (l.map f).foldr Bool.xor false = false := by
  induction l with
  | nil => rfl
  | cons x l ih => simp [hf x (by simp), ih fun y hy => hf y (by simp [hy])]

/-- A sum modulo 2 with at most one term that is not 0 is that term. -/
theorem foldr_xor_map_single {α : Type} {l : List α} {f : α → Bool} {a : α} (hl : l.Nodup) (ha : a ∈ l)
    (hf : ∀ x ∈ l, x ≠ a → f x = false) : (l.map f).foldr Bool.xor false = f a := by
  induction l with
  | nil => simp at ha
  | cons x l ih =>
    obtain ⟨hx, hl⟩ := List.nodup_cons.mp hl
    by_cases h : x = a
    · subst h
      have hrest := foldr_xor_map_zero fun y hy => hf y (by simp [hy]) (ne_of_mem_of_not_mem hy hx)
      simp [hrest]
    · have hrest := ih hl (List.mem_of_ne_of_mem (Ne.symm h) ha) fun y hy => hf y (by simp [hy])
      simp [hf x (by simp) h, hrest]

/-- A fold whose every step adds a term to bit j adds the sum of the terms to it. -/
theorem bvGet_foldl_xor {α : Type} {n j : Nat} {g : BitVec n → α → BitVec n} {f : α → Bool} {l : List α}
    (hg : ∀ p, ∀ x ∈ l, bvGet (g p x) j = (bvGet p j ^^ f x)) (p : BitVec n) :
    bvGet (l.foldl g p) j = (bvGet p j ^^ (l.map f).foldr Bool.xor false) := by
  induction l generalizing p with
  | nil => simp
  | cons x l ih =>
    simp [ih (fun p x hx => hg p x (by simp [hx])), hg p x (by simp)]

/-! ### The product (R71, R72) -/

/-- The dot product modulo 2 of A's row r and B's column c. -/
def dotProduct {R I C : Nat} (a : BitVec (R * I)) (b : BitVec (I * C)) (r c : Nat) : Bool :=
  ((List.range I).map fun i => bmGet a r i && bmGet b i c).foldr Bool.xor false

/-- Entry (r, c) of the product is the dot product of A's row r and B's column c (R71). -/
theorem bmGet_matmul {R I C r c : Nat} (hr : r < R) (hc : c < C) (a : BitVec (R * I)) (b : BitVec (I * C)) :
    bmGet (matmul R I C a b) r c = dotProduct a b r c := by
  have entry : ∀ r' ∈ List.range R, ∀ p : BitVec (R * C), ∀ c' ∈ List.range C,
      bvGet ((List.range I).foldl (fun p i => bmXor p r' c' (bmGet a r' i && bmGet b i c')) p) (flatIndex C r c) =
        (bvGet p (flatIndex C r c) ^^ (decide (r' = r ∧ c' = c) && dotProduct a b r' c')) := by
    intro r' hr' p c' hc'
    rw [List.mem_range] at hr' hc'
    have h := bvGet_foldl_bvXor (flatIndex_lt hr' hc') (fun i => bmGet a r' i && bmGet b i c') (flatIndex C r c)
      (List.range I) p
    simp only [flatIndex_inj hc' hc] at h
    exact h
  have row : ∀ p : BitVec (R * C), ∀ r' ∈ List.range R,
      bvGet ((List.range C).foldl (fun p c' =>
        (List.range I).foldl (fun p i => bmXor p r' c' (bmGet a r' i && bmGet b i c')) p) p) (flatIndex C r c) =
        (bvGet p (flatIndex C r c) ^^ (decide (r' = r) && dotProduct a b r' c)) := by
    intro p r' hr'
    rw [bvGet_foldl_xor (entry r' hr'),
      foldr_xor_map_single List.nodup_range (List.mem_range.mpr hc) fun c' _ hne => by simp [hne]]
    simp
  rw [bmGet, matmul, bvGet_foldl_xor row,
    foldr_xor_map_single List.nodup_range (List.mem_range.mpr hr) fun r' _ hne => by simp [hne]]
  simp [bmCreate, bvGet_zero]

@[simp] theorem bmGet_xor {R C : Nat} (m m' : BitVec (R * C)) (r c : Nat) :
    bmGet (m ^^^ m') r c = (bmGet m r c ^^ bmGet m' r c) := by simp [bmGet, bvGet]

/-- The product is additive in its left operand. -/
theorem matmul_xor_left {R I C : Nat} (a a' : BitVec (R * I)) (b : BitVec (I * C)) :
    matmul R I C (a ^^^ a') b = matmul R I C a b ^^^ matmul R I C a' b := by
  apply eq_of_bmGet_eq
  intro r c hr hc
  simp only [bmGet_xor, bmGet_matmul hr hc, dotProduct, Bool.and_xor_distrib_right, foldr_xor_map_xor]

/-- The product is additive in its right operand. -/
theorem matmul_xor_right {R I C : Nat} (a : BitVec (R * I)) (b b' : BitVec (I * C)) :
    matmul R I C a (b ^^^ b') = matmul R I C a b ^^^ matmul R I C a b' := by
  apply eq_of_bmGet_eq
  intro r c hr hc
  simp only [bmGet_xor, bmGet_matmul hr hc, dotProduct, Bool.and_xor_distrib_left, foldr_xor_map_xor]

/-- Settles O17: an entry is a sum modulo 2 of products (R71), and such a sum splits over XOR. -/
theorem productIsAdditiveInEachOperand : Obligations.ProductIsAdditiveInEachOperand :=
  ⟨fun _ _ _ => matmul_xor_left, fun _ _ _ => matmul_xor_right⟩

/-! ### Words by their bits -/

/-- Words of one width with the same bits are the same. -/
theorem eq_of_bvGet_eq {n : Nat} {v w : BitVec n} (h : ∀ k, k < n → bvGet v k = bvGet w k) : v = w :=
  BitVec.eq_of_getLsbD_eq h

@[simp] theorem bvGet_xor {n : Nat} (v w : BitVec n) (k : Nat) : bvGet (v ^^^ w) k = (bvGet v k ^^ bvGet w k) := by
  simp [bvGet]

theorem bvGet_lowNibble (v : Byte) {k : Nat} (hk : k < 4) : bvGet (lowNibble v) k = bvGet v k := by
  simp [lowNibble, bvGet, hk]

/-! ### Bytes and row vectors (R67, R68) -/

/-- A fold that sets bit i where `f i` holds, for each i of a list. -/
theorem bvGet_foldl_bvSet {n : Nat} (f : Nat → Bool) (j : Nat) (l : List Nat) (p : BitVec n) :
    bvGet (l.foldl (fun p i => if f i then bvSet p i else p) p) j =
      (bvGet p j || (decide (j < n) && decide (j ∈ l) && f j)) := by
  induction l generalizing p with
  | nil => simp
  | cons i l ih =>
    rw [List.foldl_cons, ih]
    by_cases h : i = j
    · subst h; cases f i <;> cases hn : decide (i < n) <;> simp [hn, bvGet_bvSet]
    · cases f i <;> simp [h, Ne.symm h, bvGet_bvSet]

/-- Bit i of the row vector is bit i of the value (R67). -/
theorem bmGet_fromByte {length i : Nat} (h : i < length) (v : Byte) : bmGet (fromByte v length) 0 i = bvGet v i := by
  have hb := bvGet_foldl_bvSet (bvGet v) i (List.range length) (bmCreate 1 length)
  simpa [bmGet, fromByte, bmSet, flatIndex, bmCreate, bvGet_zero, h] using hb

/-- `to_byte` packs the first min(C, 8) elements of row 0 (R68). -/
theorem bvGet_toByte {R C : Nat} (m : BitVec (R * C)) {i : Nat} (h : i < 8) :
    bvGet (toByte m) i = (decide (i < C) && bmGet m 0 i) := by
  rw [toByte, bvGet_foldl_bvSet]
  simp [bvGet_zero, h]

/-! ### The units over any constants (R76, R84, R87) -/

/-- Bit k of a codeword is the dot product of the message and G's column k (R76). -/
theorem bvGet_encodeUnit (rom : Rom) (n : Msg) {k : Nat} (hk : k < 8) :
    bvGet (encodeUnit rom n) k =
      ((List.range 4).map fun i => bvGet n i && bmGet (R := 4) (C := 8) rom.g i k).foldr Bool.xor false := by
  rw [encodeUnit, bvGet_toByte _ hk, bmGet_matmul (by decide) hk]
  simp [dotProduct, hk, List.range_succ, bmGet_fromByte, bvGet]

/-- Bit k of a syndrome is the dot product of the codeword and Ht's column k (R84). -/
theorem bvGet_syndrome (rom : Rom) (c : Code) {k : Nat} (hk : k < 4) :
    bvGet (syndrome rom c) k =
      ((List.range 8).map fun i => bvGet c i && bmGet (R := 8) (C := 4) rom.ht i k).foldr Bool.xor false := by
  rw [syndrome, bvGet_lowNibble _ hk, bvGet_toByte _ (by omega), bmGet_matmul (by decide) hk]
  simp [dotProduct, hk, List.range_succ, bmGet_fromByte]

/-- The syndrome is linear (R84). -/
theorem syndrome_xor (rom : Rom) (c d : Code) : syndrome rom (c ^^^ d) = syndrome rom c ^^^ syndrome rom d := by
  apply eq_of_bvGet_eq
  intro k hk
  simp only [bvGet_xor, bvGet_syndrome rom _ hk, Bool.and_xor_distrib_right, foldr_xor_map_xor]

/-- The syndrome of one flipped bit is its row of Ht (R85). -/
theorem syndrome_twoPow (rom : Rom) (p : Pos) :
    syndrome rom (BitVec.twoPow 8 p.toNat) = rom.ht.extractLsb' (4 * p.toNat) 4 := by
  apply eq_of_bvGet_eq
  intro k hk
  have hother : ∀ i ∈ List.range 8, i ≠ p.toNat →
      (bvGet (BitVec.twoPow 8 p.toNat) i && bmGet (R := 8) (C := 4) rom.ht i k) = false := by
    intro i _ hi
    simp [bvGet, BitVec.getLsbD_twoPow, Ne.symm hi]
  rw [bvGet_syndrome rom _ hk, foldr_xor_map_single List.nodup_range (List.mem_range.mpr p.isLt) hother]
  simp [bvGet, bmGet, flatIndex, hk, Nat.mul_comm, p.isLt]

/-- A byte comes back from its row vector (R68). -/
theorem toByte_fromByte (c : Code) : toByte (R := 1) (C := 8) (fromByte c 8) = c := by
  apply eq_of_bvGet_eq
  intro k hk
  simp [bvGet_toByte _ hk, bmGet_fromByte hk, hk]

/-- A correction at p flips bit p of the codeword and no other (R87). -/
theorem correct_pos (c : Code) (p : Pos) : correct c (.pos p) = c ^^^ BitVec.twoPow 8 p.toNat := by
  apply eq_of_bvGet_eq
  intro k hk
  have hrow := bmGet_fromByte hk c
  rw [bmGet] at hrow
  rw [correct, bvGet_toByte _ hk, bmGet, bmXor, bvGet_bvXor, hrow]
  simp [flatIndex, hk, p.isLt, bvGet, eq_comm]

/-! ### The units over the wired constants (R24 to R26, R76 to R78, R91) -/

/-- A codeword's low nibble is its message (R78). -/
theorem lowNibble_encodeUnit (n : Msg) : lowNibble (encodeUnit Rom.wired n) = n := by
  apply eq_of_bvGet_eq
  intro k hk
  rw [bvGet_lowNibble _ hk, bvGet_encodeUnit _ _ (by omega)]
  interval_cases k <;> simp [List.range_succ, Rom.wired, gFlat, bmGet, bvGet, flatIndex]

/-- A codeword's syndrome is 0: each row of G is orthogonal to each column of Ht (R28, R85). -/
theorem syndrome_encodeUnit (n : Msg) : syndrome Rom.wired (encodeUnit Rom.wired n) = 0#4 := by
  apply eq_of_bvGet_eq
  intro k hk
  rw [bvGet_syndrome _ _ hk,
    List.map_congr_left fun i hi => by rw [bvGet_encodeUnit Rom.wired n (List.mem_range.mp hi)]]
  interval_cases k <;>
    simp [List.range_succ, Rom.wired, gFlat, htFlat, bmGet, bvGet, flatIndex, Bool.xor_left_comm]

/-- The syndrome table names the position whose row of Ht it is given (R26). -/
theorem lookup_row : ∀ p : Pos, lookup Rom.wired (Rom.wired.ht.extractLsb' (4 * p.toNat) 4) = .pos p := by decide

/-- An intact codeword decodes to its message (R91). -/
theorem decodeUnit_encodeUnit_msg (n : Msg) : (decodeUnit Rom.wired (encodeUnit Rom.wired n)).msg = n := by
  have hentry : lookup Rom.wired 0#4 = .ok := by decide
  simp [decodeUnit, syndrome_encodeUnit, hentry, correct, toByte_fromByte, lowNibble_encodeUnit]

/-- A codeword with one flipped bit decodes to its message: the syndrome depends on the flipped bit alone, and the
correction flips that bit back (R91). -/
theorem decodeUnit_flipped_msg (n : Msg) (p : Pos) :
    (decodeUnit Rom.wired (encodeUnit Rom.wired n ^^^ BitVec.twoPow 8 p.toNat)).msg = n := by
  have hsyn : syndrome Rom.wired (encodeUnit Rom.wired n ^^^ BitVec.twoPow 8 p.toNat) =
      Rom.wired.ht.extractLsb' (4 * p.toNat) 4 := by
    rw [syndrome_xor, syndrome_encodeUnit, BitVec.zero_xor, syndrome_twoPow]
  rw [decodeUnit, hsyn, lookup_row, correct_pos, BitVec.xor_assoc, BitVec.xor_self, BitVec.xor_zero]
  exact lowNibble_encodeUnit n

/-- A codeword with at most one flipped bit decodes to its message (R91). -/
theorem decodeUnit_msg_of_at_most_one_flip (n : Msg) {e : Code}
    (he : e = 0#8 ∨ ∃ p : Pos, e = BitVec.twoPow 8 p.toNat) :
    (decodeUnit Rom.wired (encodeUnit Rom.wired n ^^^ e)).msg = n := by
  obtain rfl | ⟨p, rfl⟩ := he
  · rw [BitVec.xor_zero, decodeUnit_encodeUnit_msg]
  · exact decodeUnit_flipped_msg n p

end Sys2Proof
end

section
/-! PROOFS. One cycle that answers a request, responses leaving in order, what the host comes to once it has taken
everything in flight, and the pseudo-instructions by way of that. -/

namespace Sys2Proof

/-! ### A response in its word (R50) -/

@[simp] theorem Status.ofCode_code (st : Status) : Status.ofCode st.code = st := by cases st <;> rfl

/-- Each field of a response stands at its place in the word (R50). -/
theorem Resp.word_fields (r : Resp) : r.word.extractLsb' 9 8 = r.data ∧ r.word.extractLsb' 7 2 = r.status.code ∧
    r.word.extractLsb' 3 4 = r.syn ∧ r.word.extractLsb' 0 3 = r.pos := by
  refine ⟨?_, ?_, ?_, ?_⟩ <;> rw [Resp.word]
  · rw [BitVec.extractLsb'_append_eq_of_le (by decide), BitVec.extractLsb'_append_eq_of_le (by decide)]
    exact BitVec.extractLsb'_append_eq_left
  · rw [BitVec.extractLsb'_append_eq_of_le (by decide), BitVec.extractLsb'_append_eq_of_le (by decide)]
    exact BitVec.extractLsb'_append_eq_right
  · rw [BitVec.extractLsb'_append_eq_of_le (by decide)]
    exact BitVec.extractLsb'_append_eq_right
  · exact BitVec.extractLsb'_append_eq_right

/-- The fields read out of a response word are those put into it. -/
@[simp] theorem Resp.ofWord_word (r : Resp) : Resp.ofWord r.word = r := by
  obtain ⟨hdata, hstatus, hsyn, hpos⟩ := r.word_fields
  rw [Resp.ofWord, hdata, hstatus, hsyn, hpos, Status.ofCode_code]

end Sys2Proof

namespace Sys2Proof.Machine

/-! ### One answered cycle (R111 to R113) -/

/-- A cycle that accepts a request answers it, in every state. -/
theorem answered_transact (r : Resp) (d : Dest) (s : State) : Answered s (transact r d s) r d where
  combinational hp := by simp [nextPipe_of_nil hp, shown, shownWord_combinational hp]
  pipelined hp hr := by
    refine ⟨by simp [nextPipe_of_resetSeen hr, shiftPipe_of_ne_nil hp, inputStage], ?_⟩
    obtain hn | ⟨front, last, hl⟩ := List.eq_nil_or_concat' s.pipe
    · exact absurd hn hp
    · simp [shown, shownWord_pipelined hl]
  unreset hp hr := by simp [nextPipe_length, shown, shownWord_of_not_resetSeen hp hr]
  respValid h := by simpa [shown] using respValid_eq_isSome h (some r.word)
  host := rfl
  rom := rfl
  product := rfl
  script := rfl
  resetSeen := rfl
  cycle := rfl

/-! ### Plain responses (R16) -/

/-- Taking a response where only plain ones are awaited emits and keeps nothing. -/
theorem take_plain {h : HostSide} (hp : ∀ d ∈ h.awaiting, d = .plain) (out : Option Resp) :
    (h.take out).emitted = h.emitted ∧ (h.take out).held = h.held ∧ ∀ d ∈ (h.take out).awaiting, d = .plain := by
  obtain ⟨awaiting, held, emitted, received⟩ := h
  cases out with
  | none => simpa using hp
  | some r =>
    cases awaiting with
    | nil => simp
    | cons d ds =>
      obtain ⟨rfl, hds⟩ := List.forall_mem_cons.mp hp
      simpa [HostSide.deliver] using hds

/-- A plain request emits and keeps nothing where only plain responses are awaited. -/
theorem transact_plain {s : State} (hp : ∀ d ∈ s.host.awaiting, d = .plain) (r : Resp) :
    (transact r .plain s).host.emitted = s.host.emitted ∧ (transact r .plain s).host.held = s.host.held ∧
      ∀ d ∈ (transact r .plain s).host.awaiting, d = .plain := by
  have hexpect : ∀ d ∈ (s.host.expect (some .plain)).awaiting, d = .plain := by
    simpa [HostSide.expect, or_imp, forall_and] using hp
  exact take_plain hexpect _

/-- Settles O35: of the other instructions, four are a plain request and a standalone product leaves the host alone. -/
theorem plainRequestsEmitNothing : Obligations.PlainRequestsEmitNothing := by
  intro i s t hencb hdecb hp hx
  cases i with
  | enc ignored n => cases hx; exact transact_plain hp _
  | dec cw => cases hx; exact transact_plain hp _
  | lut ignored syn => cases hx; exact transact_plain hp _
  | reserved ignored => cases hx; exact transact_plain (s := recordFault .illegalOp s) hp _
  | gf2Matmul a b =>
    rw [exec_gf2Matmul] at hx
    split at hx
    · cases hx; exact ⟨rfl, rfl, hp⟩
    · cases hx
  | encb b => exact absurd rfl (hencb b)
  | decb c0 c1 => exact absurd rfl (hdecb c0 c1)

/-! ### Responses leave in order (R40, R112) -/

/-- Nothing is in flight where there is no pipeline. -/
theorem inFlight_of_nil {s : State} (h : s.pipe = []) : s.inFlight = [] := by simp [State.inFlight, h]

/-- One cycle: what it shows, and then what is in flight, are what was in flight, and then the answer. -/
theorem shown_append_inFlight_advance {s : State} (h : s.pipe = [] ∨ s.resetSeen = true)
    (a : Option (RespWord × Dest)) :
    (shown s (a.map Prod.fst)).toList ++ (advance a s).inFlight =
      s.inFlight ++ (a.map fun x => Resp.ofWord x.1).toList := by
  obtain hp | ⟨front, last, hl⟩ := List.eq_nil_or_concat' s.pipe
  · have hp' : (advance a s).pipe = [] := nextPipe_of_nil hp _
    cases a <;> simp [inFlight_of_nil hp, inFlight_of_nil hp', shown, shownWord_combinational hp]
  · have hr : s.resetSeen = true := by simpa [hl] using h
    have hp' : (advance a s).pipe = inputStage (s.cycle + 1) (a.map Prod.fst) :: front := by
      simp [nextPipe_of_resetSeen hr, shiftPipe, hl, List.dropLast_cons_of_ne_nil]
    rw [inFlight_of_resetSeen hr, inFlight_of_resetSeen (s := advance a s) hr, hp', hl, shown,
      shownWord_pipelined hl, hr]
    cases hv : last.pv <;> cases a <;> simp [inputStage, hv]

theorem take_awaiting_length (h : HostSide) (out : Option Resp) :
    (h.take out).awaiting.length = h.awaiting.length - out.toList.length := by
  obtain ⟨ht, rfl | hn⟩ | ⟨r, d, ds, rfl, ha, ht, -⟩ := take_cases h out
  · simp
  · simp [ht, hn]
  · simp [ht, ha]

/-- A cycle keeps it that the host awaits just what is in flight. -/
theorem hostSync_advance {s : State} (h : s.pipe = [] ∨ s.resetSeen = true) (hs : s.HostSync)
    (a : Option (RespWord × Dest)) : (advance a s).HostSync := by
  have hlen := congrArg List.length (shown_append_inFlight_advance h a)
  have ha : (a.map Prod.snd).toList.length = (a.map fun x => Resp.ofWord x.1).toList.length := by cases a <;> rfl
  unfold State.HostSync at hs ⊢
  rw [List.length_append, List.length_append] at hlen
  simp only [advance_host, take_awaiting_length, HostSide.expect, List.length_append]
  omega

/-! ### The host once it has taken what is in flight -/

/-- The host after it has taken the given responses one after the other. -/
def HostSide.takeAll (h : HostSide) (rs : List Resp) : HostSide := rs.foldl (fun h r => h.take (some r)) h

/-- The host once it has taken every response in flight. -/
def State.drainedHost (s : State) : HostSide := s.host.takeAll s.inFlight

theorem takeAll_cons (h : HostSide) (r : Resp) (rs : List Resp) :
    h.takeAll (r :: rs) = (h.take (some r)).takeAll rs := rfl

theorem takeAll_append (h : HostSide) (rs rs' : List Resp) :
    h.takeAll (rs ++ rs') = (h.takeAll rs).takeAll rs' := List.foldl_append

theorem takeAll_toList (h : HostSide) (out : Option Resp) : h.takeAll out.toList = h.take out := by
  cases out
  · exact (take_none h).symm
  · rfl

theorem drainedHost_of_inFlight_nil {s : State} (h : s.inFlight = []) : s.drainedHost = s.host := by
  rw [State.drainedHost, h]; rfl

/-- A response taken and a request noted may change places where another response was awaited before. -/
theorem take_expect {h : HostSide} (hn : h.awaiting ≠ []) (d : Dest) (r : Resp) :
    (h.expect (some d)).take (some r) = (h.take (some r)).expect (some d) := by
  obtain ⟨awaiting, held, emitted, received⟩ := h
  cases awaiting with
  | nil => exact absurd rfl hn
  | cons e es => cases e <;> rfl

theorem takeAll_expect (d : Dest) {h : HostSide} {rs : List Resp} (hl : rs.length ≤ h.awaiting.length) :
    (h.expect (some d)).takeAll rs = (h.takeAll rs).expect (some d) := by
  induction rs generalizing h with
  | nil => rfl
  | cons r rs ih =>
    have hn : h.awaiting ≠ [] := List.ne_nil_of_length_pos (Nat.lt_of_lt_of_le (Nat.succ_pos _) hl)
    have hrest : rs.length ≤ (h.take (some r)).awaiting.length := by
      rw [take_awaiting_length]
      exact Nat.le_sub_of_add_le hl
    rw [takeAll_cons, takeAll_cons, take_expect hn, ih hrest]

/-- A cycle hands the host what it shows and leaves it to take the rest. -/
theorem drainedHost_advance {s : State} (h : s.pipe = [] ∨ s.resetSeen = true) (a : Option (RespWord × Dest)) :
    (advance a s).drainedHost =
      ((s.host.expect (a.map Prod.snd)).takeAll s.inFlight).take (a.map fun x => Resp.ofWord x.1) := by
  rw [State.drainedHost, advance_host, ← takeAll_toList, ← takeAll_append, shown_append_inFlight_advance h,
    takeAll_append, takeAll_toList]

/-- An idle cycle changes nothing of what the host comes to. -/
theorem drainedHost_idleCycle {s : State} (h : s.pipe = [] ∨ s.resetSeen = true) :
    (idleCycle s).drainedHost = s.drainedHost := by
  have hexpect : s.host.expect none = s.host := by simp [HostSide.expect]
  simpa [hexpect, State.drainedHost] using drainedHost_advance h none

/-- A request adds its own response to what the host comes to, and nothing else. -/
theorem drainedHost_transact {s : State} (h : s.pipe = [] ∨ s.resetSeen = true) (hs : s.HostSync) (r : Resp)
    (d : Dest) : (transact r d s).drainedHost = (s.drainedHost.expect (some d)).take (some r) := by
  have hadv := drainedHost_advance h (some (r.word, d))
  simpa [takeAll_expect d (Nat.le_of_eq hs.symm), State.drainedHost] using hadv

/-- What a host that awaits nothing comes to by one response that it asks for and takes. -/
def HostSide.serve (d : Dest) (r : Resp) (h : HostSide) : HostSide :=
  ({ h with received := h.received ++ [r] } : HostSide).deliver d r

@[simp] theorem serve_awaiting (d : Dest) (r : Resp) (h : HostSide) : (h.serve d r).awaiting = h.awaiting :=
  deliver_awaiting ..

theorem take_expect_of_idle {h : HostSide} (hn : h.awaiting = []) (d : Dest) (r : Resp) :
    (h.expect (some d)).take (some r) = h.serve d r := by
  obtain ⟨awaiting, held, emitted, received⟩ := h
  cases hn
  rfl

@[simp] theorem serve_emit_emitted (r : Resp) (h : HostSide) : (h.serve .emit r).emitted = h.emitted ++ [r.data] := rfl

/-- DECB's pair: the second nibble stands above the first (R14). -/
@[simp] theorem serve_low_high_emitted (r₀ r₁ : Resp) (h : HostSide) :
    ((h.serve .low r₀).serve .high r₁).emitted = h.emitted ++ [nibbles (lowNibble r₁.data) (lowNibble r₀.data)] := rfl

/-- Two requests in consecutive cycles on a host that awaits nothing: what the host does with their responses, in
request order, is all that it comes to. -/
theorem drainedHost_two_requests {s : State} (h : s.pipe = [] ∨ s.resetSeen = true) (hs : s.HostSync)
    (hn : s.host.awaiting = []) (r₀ r₁ : Resp) (d₀ d₁ : Dest) :
    (transact r₁ d₁ (transact r₀ d₀ s)).drainedHost = (s.host.serve d₀ r₀).serve d₁ r₁ := by
  have hflight : s.inFlight = [] := by
    have hlen : s.inFlight.length = 0 := by simpa [hn] using hs.symm
    exact List.eq_nil_of_length_eq_zero hlen
  have hm : (transact r₀ d₀ s).pipe = [] ∨ (transact r₀ d₀ s).resetSeen = true :=
    h.imp (nextPipe_of_nil · _) id
  rw [drainedHost_transact hm (hostSync_advance h hs _), drainedHost_transact h hs,
    drainedHost_of_inFlight_nil hflight, take_expect_of_idle hn, take_expect_of_idle ((serve_awaiting ..).trans hn)]

/-! ### LATENCY idle cycles (R112) -/

/-- A host with nothing more to do lets the block run idle. -/
theorem run_of_script_nil {s : State} (hs : s.script = []) (k : Nat) : run k s = .next (idleCycle^[k] s) := by
  induction k generalizing s with
  | zero => rfl
  | succ k ih =>
    have hstep : step s = .next (idleCycle s) := by simp [step, fetch, hs]
    rw [run_succ, hstep]
    exact ih hs

/-- What some idle cycles leave alone, and that the stages they have filled hold nothing. -/
structure IdleAfter (s : State) (k : Nat) (t : State) : Prop where
  latency : t.latency = s.latency
  resetSeen : t.resetSeen = s.resetSeen
  faults : t.faults = s.faults
  drainedHost : t.drainedHost = s.drainedHost
  invalid : ∀ st ∈ t.pipe.take k, st.pv = false

theorem mem_take_shiftPipe {pipe : List Stage} {st x : Stage} {k : Nat} (h : x ∈ (shiftPipe pipe st).take (k + 1)) :
    x = st ∨ x ∈ pipe.take k := by
  rw [shiftPipe, List.dropLast_eq_take, List.take_take] at h
  simpa using List.take_subset_take_left _ (Nat.min_le_left _ _) h

theorem idleAfter_iterate {s : State} (hr : s.resetSeen = true) (k : Nat) : IdleAfter s k (idleCycle^[k] s) := by
  induction k with
  | zero => exact ⟨rfl, rfl, rfl, rfl, by simp⟩
  | succ k ih =>
    obtain ⟨hlatency, hreset, hfaults, hhost, hinvalid⟩ := ih
    rw [Function.iterate_succ_apply']
    have hr' := hreset.trans hr
    refine ⟨(nextPipe_length _ _).trans hlatency, hreset, hfaults, (drainedHost_idleCycle (.inr hr')).trans hhost, ?_⟩
    intro st hst
    rw [idleCycle_eq_advance, advance_pipe, nextPipe_of_resetSeen hr'] at hst
    obtain rfl | hst := mem_take_shiftPipe hst
    · rfl
    · exact hinvalid st hst

/-- LATENCY idle cycles hand the host everything in flight, and record no fault. -/
theorem run_latency_of_script_nil {s : State} (hs : s.script = []) (hr : s.resetSeen = true) :
    ∃ t, run s.latency s = .next t ∧ t.host = s.drainedHost ∧ t.faults = s.faults := by
  refine ⟨_, run_of_script_nil hs _, ?_⟩
  obtain ⟨hlatency, -, hfaults, hhost, hinvalid⟩ := idleAfter_iterate hr s.latency
  generalize idleCycle^[s.latency] s = t at *
  have hflight : t.inFlight = [] := by
    have hall : t.pipe.take s.latency = t.pipe := List.take_of_length_le (Nat.le_of_eq hlatency)
    rw [hall] at hinvalid
    simpa [State.inFlight] using fun _ st hst => hinvalid st hst
  exact ⟨(drainedHost_of_inFlight_nil hflight).symm.trans hhost, hfaults⟩

/-! ### The pseudo-instructions (R13, R14) -/

/-- An instruction of the script is run as it is. -/
theorem step_instr {s : State} {i : Instr} {rest : List HostEvent} (he : s.Elaborates)
    (hs : s.script = .instr i :: rest) : step s = exec i { s with script := rest } := by
  have hd : scriptDefect (.instr i :: rest) = none := hs ▸ he
  simp [step, fetch, hs, hd]

/-- A script of one pseudo-instruction, and LATENCY idle cycles after it: the host has done with both responses what
it wants them for, and nothing else. -/
theorem run_two_requests {s : State} {i : Instr} {r₀ r₁ : Resp} {d₀ d₁ : Dest} (hinv : s.Inv)
    (hn : s.host.awaiting = []) (hs : s.script = [.instr i]) (hi : i.WellFormed)
    (hx : ∀ s', s'.rom = Rom.wired → exec i s' = .next (transact r₁ d₁ (transact r₀ d₀ s'))) :
    ∃ t, run (s.latency + 1) s = .next t ∧ t.faults = s.faults ∧
      t.host = (s.host.serve d₀ r₀).serve d₁ r₁ := by
  obtain ⟨hrom, hr, hsync⟩ := hinv
  let s' : State := { s with script := [] }
  let m := transact r₁ d₁ (transact r₀ d₀ s')
  have he : s.Elaborates := by rw [State.Elaborates, hs, scriptDefect_instr hi]; rfl
  have hstep : step s = .next m := (step_instr he hs).trans (hx s' hrom)
  have hlatency : m.latency = s.latency := (nextPipe_length _ _).trans (nextPipe_length _ _)
  obtain ⟨t, ht, hhost, hfaults⟩ := run_latency_of_script_nil (s := m) rfl hr
  refine ⟨t, ?_, hfaults, hhost.trans (drainedHost_two_requests (s := s') (.inr hr) hsync hn ..)⟩
  rw [run_succ, hstep, ← hlatency]
  exact ht

/-- Two requests without a pipeline: the host has done with both responses what it wants them for. -/
theorem host_two_requests_combinational {s : State} (hp : s.pipe = []) (hn : s.host.awaiting = [])
    (r₀ r₁ : Resp) (d₀ d₁ : Dest) :
    (transact r₁ d₁ (transact r₀ d₀ s)).host = (s.host.serve d₀ r₀).serve d₁ r₁ := by
  have hsync : s.HostSync := by simp [State.HostSync, hn, inFlight_of_nil hp]
  have hp' : (transact r₁ d₁ (transact r₀ d₀ s)).pipe = [] := nextPipe_of_nil (nextPipe_of_nil hp _) _
  rw [← drainedHost_two_requests (.inl hp) hsync hn, drainedHost_of_inFlight_nil (inFlight_of_nil hp')]

/-- Settles O32: two answered cycles, whose responses the host emits in request order. -/
theorem encbCompletesAsTwoEncodings : Obligations.EncbCompletesAsTwoEncodings := by
  intro s b hrom
  rw [← hrom]
  refine ⟨_, _, exec_encb b s, rfl, answered_transact (encResp s.rom (lowNibble b)) .emit s,
    answered_transact .., fun hp hn => ?_⟩
  rw [host_two_requests_combinational hp hn]
  simp [encResp, lowNibble, highNibble]

/-- Settles O33: two answered cycles; the host keeps the first nibble and packs the second above it. -/
theorem decbCompletesAsTwoDecodings : Obligations.DecbCompletesAsTwoDecodings := by
  intro s c0 c1 hrom
  rw [← hrom]
  refine ⟨_, _, exec_decb c0 c1 s, rfl, answered_transact (decResp s.rom c0) .low s,
    answered_transact .., fun hp hn => ?_⟩
  rw [host_two_requests_combinational hp hn, serve_low_high_emitted]
  simp only [decResp, lowNibble_nibbles]
  rfl

/-- Settles O51: LATENCY idle cycles hand the host both codewords. -/
theorem encbEmitsBothCodewordsAtAnyLatency : Obligations.EncbEmitsBothCodewordsAtAnyLatency := by
  intro s b hinv hn hs
  obtain ⟨t, ht, hfaults, hhost⟩ := run_two_requests hinv hn hs rfl
    fun s' h => by rw [exec_encb, h]
  refine ⟨t, ht, by simp [hhost, hn], hfaults, ?_⟩
  simp [hhost, encResp, lowNibble, highNibble]

/-- Settles O52: each nibble survives its flipped bit, and the host packs the two in their places. -/
theorem byteSurvivesOneFlippedBitPerCodeword : Obligations.ByteSurvivesOneFlippedBitPerCodeword := by
  intro s b e0 e1 hinv hn he0 he1 hs
  obtain ⟨t, ht, hfaults, hhost⟩ := run_two_requests hinv hn hs rfl
    fun s' h => by rw [exec_decb, h]
  have hbyte : nibbles (b.extractLsb' 4 4) (b.extractLsb' 0 4) = b := nibbles_high_low b
  refine ⟨t, ht, by simp [hhost, hn], hfaults, ?_⟩
  rw [hhost, serve_low_high_emitted]
  simp [decResp, decodeUnit_msg_of_at_most_one_flip _ he0, decodeUnit_msg_of_at_most_one_flip _ he1, hbyte]

end Sys2Proof.Machine
end

section
/-! PROOFS. What every step keeps: the constants, LATENCY and the invariant; the frame of an instruction; the reset
state; and the wired constants (spec/10_state.md). -/

namespace Sys2Proof.Machine

/-! ### LATENCY (R21): what no operation changes -/

@[simp] theorem advance_latency (a : Option (RespWord × Dest)) (s : State) : (advance a s).latency = s.latency :=
  nextPipe_length ..
@[simp] theorem resetCycle_latency (s : State) : (resetCycle s).latency = s.latency := emptyPipe_length ..
@[simp] theorem recordFault_latency (f : Fault) (s : State) : (recordFault f s).latency = s.latency := rfl
@[simp] theorem recordReads_latency (c : HostCycle) (s : State) : (recordReads c s).latency = s.latency := by
  simp [State.latency]

/-! ### The invariant (R27, R40, R110) -/

@[simp] theorem recordReads_inFlight (c : HostCycle) (s : State) : (recordReads c s).inFlight = s.inFlight := by
  simp [State.inFlight]

theorem inv_recordReads (c : HostCycle) {s : State} (h : s.Inv) : (recordReads c s).Inv := by
  simpa [State.Inv, State.HostSync] using h

/-- A cycle without a reset edge keeps the invariant, with a request or without. -/
theorem inv_advance (a : Option (RespWord × Dest)) {s : State} (h : s.Inv) : (advance a s).Inv := by
  obtain ⟨hrom, hreset, hsync⟩ := h
  exact ⟨hrom, hreset, hostSync_advance (.inr hreset) hsync a⟩

/-- At a reset edge the host drops what it awaits along with what is in flight (R108). -/
theorem inv_resetCycle {s : State} (h : s.rom = Rom.wired) : (resetCycle s).Inv := by
  have hflight : (resetCycle s).inFlight = [] := inFlight_of_emptyPipe (resetCycle_pipe s)
  exact ⟨h, rfl, by simp [State.HostSync, hflight]⟩

/-- Settles O42: a cycle moves one response from those in flight to the host, and awaits one more where it accepts a
request; every other operation leaves both sides alone. -/
theorem everyStepKeepsTheInvariant : Obligations.EveryStepKeepsTheInvariant := by
  intro s t hinv hstep
  exact step_preserves (P := State.Inv)
    (script := fun _ _ h => h)
    (reads := fun c _ h => inv_recordReads c h)
    (idle := fun _ h => inv_advance none h)
    (reset := fun _ _ h => inv_resetCycle h.left)
    (request := fun _ _ _ _ h => inv_advance _ h)
    (reserved := fun _ h => inv_advance (s := recordFault .illegalOp _) _ h)
    (product := fun _ _ h => h)
    hstep hinv

/-- Settles O43: each operation of a step leaves the constants and the number of stages alone. -/
theorem constantsAndLatencyNeverChange : Obligations.ConstantsAndLatencyNeverChange := by
  refine ⟨fun _ => rfl, fun s t hstep => ?_⟩
  exact step_preserves (P := fun u => u.rom = s.rom ∧ u.latency = s.latency)
    (script := fun _ _ h => h)
    (reads := by simp)
    (idle := by simp)
    (reset := by simp)
    (request := by simp)
    (reserved := by simp)
    (product := fun _ _ h => h)
    hstep ⟨rfl, rfl⟩

/-! ### The frame of an instruction (R27, R42, R96, R104) -/

/-- A standalone product that completes writes its port and nothing else. -/
theorem exec_gf2Matmul_next {a b : BitMatrix} {s t : State} (h : exec (.gf2Matmul a b) s = .next t) :
    ∃ p, t = { s with product := some p } := by
  rw [exec_gf2Matmul] at h
  split at h
  · next p _ => cases h; exact ⟨p, rfl⟩
  · cases h

/-- Settles O34: a request is one cycle of the wrapper or two, with a fault recorded for the reserved op; a standalone
product writes its port. -/
theorem instructionsLeaveTheRestUnchanged : Obligations.InstructionsLeaveTheRestUnchanged := by
  intro i s t hx
  cases i with
  | enc | dec | lut | encb | decb => cases hx; simp
  | reserved ignored => cases hx; simp
  | gf2Matmul a b => obtain ⟨p, rfl⟩ := exec_gf2Matmul_next hx; simp [State.latency]

/-! ### The reset state (R31) -/

theorem resetAt_inFlight (latency : Nat) : (State.resetAt latency).inFlight = [] := inFlight_of_emptyPipe rfl

/-- Settles O41: the pipeline is empty at reset, and the host has taken nothing and awaits nothing. -/
theorem resetStateIsAsTheSpecSays : Obligations.ResetStateIsAsTheSpecSays := by
  refine ⟨fun latency => ⟨rfl, emptyPipe_length .., fun _ => emptyPipe_pv, rfl, ⟨rfl, rfl, ?_⟩, ?_⟩, rfl⟩
  · rw [State.HostSync, resetAt_inFlight]; rfl
  · rw [State.IllegalStatusRecorded, resetAt_inFlight]; simp [State.resetAt]

end Sys2Proof.Machine

namespace Sys2Proof

/-! ### The wired constants (R24 to R26, R28, R29, R82) -/

/-- Settles O1, by evaluating each element of both matrices. -/
theorem constantsHaveExactlyTheListedOnes : Obligations.ConstantsHaveExactlyTheListedOnes :=
  ⟨by decide, by decide, rfl, rfl, by decide, by decide⟩

/-- Each row of G is orthogonal to each column of Ht (R29). -/
theorem matmul_wired : matmul 4 8 4 Rom.wired.g Rom.wired.ht = 0#(4 * 4) := by
  have hdot : ∀ r < 4, ∀ c < 4, dotProduct (R := 4) (I := 8) (C := 4) Rom.wired.g Rom.wired.ht r c = false := by
    decide
  apply eq_of_bmGet_eq
  intro r c hr hc
  rw [bmGet_matmul hr hc, hdot r hr c hc, bmGet, bvGet_zero]

/-- Settles O2: the blocks by evaluating their elements; the rest is the orthogonality of G and Ht. -/
theorem generatorAndCheckMatrixStructure : Obligations.GeneratorAndCheckMatrixStructure :=
  ⟨by decide, by decide, by decide, by decide, matmul_wired, syndrome_encodeUnit⟩

/-- Settles O3, by evaluating the table at each of the 16 syndromes. -/
theorem syndromeTableEntriesAndCover : Obligations.SyndromeTableEntriesAndCover :=
  ⟨by decide, by decide, by decide, by decide, by decide⟩

end Sys2Proof
end

section
/-! PROOFS. A vector's byte image; and the responses taken and in flight, which every step only adds to at the end,
but for a reset edge (spec/20_memory.md). -/

namespace Sys2Proof

/-! ### The byte image (R34, R36) -/

theorem byteImage_length {n : Nat} (v : BitVec n) : (byteImage v).length = (n + 7) / 8 := by simp [byteImage]

theorem byteImage_getElem? {n j : Nat} (hj : j < (n + 7) / 8) (v : BitVec n) :
    (byteImage v)[j]? = some (v.extractLsb' (8 * j) 8) := by simp [byteImage, hj]

/-- Settles O14: byte j is a slice of eight bits, and a vector reads 0 past its end. -/
theorem byteImageHoldsTheVectorLsbFirst : Obligations.ByteImageHoldsTheVectorLsbFirst := by
  refine fun n v => ⟨byteImage_length v, fun j t ht hj => ?_⟩
  have hend : (decide (8 * j + t < n) && v.getLsbD (8 * j + t)) = v.getLsbD (8 * j + t) := by
    simpa using BitVec.lt_of_getLsbD
  simp [byteImage_getElem? hj, ht, hend]

end Sys2Proof

namespace Sys2Proof.Machine

/-! ### What the fetch leaves of the state -/

/-- The state that a fetch hands on. -/
def Fetched.state? : Fetched → Option State
  | .refused _ => none
  | .idle s => some s
  | .reset s => some s
  | .run _ s => some s

theorem recordReads_eq_faults (c : HostCycle) (s : State) : ∃ faults, recordReads c s = { s with faults } := by
  unfold recordReads
  split
  · exact ⟨s.faults, rfl⟩
  · exact ⟨_, rfl⟩

/-- A fetch writes the script and the fault record, and nothing else. -/
theorem eq_of_fetch_state? {s s' : State} (he : s.Elaborates) (hf : (fetch s).state? = some s') :
    ∃ script faults, s' = { s with script, faults } := by
  obtain ⟨-, h⟩ | ⟨i, rest, -, h⟩ | ⟨c, rest, -, ⟨-, -, h⟩ | ⟨-, -, h⟩ | ⟨-, -, h⟩⟩ := fetch_cases he <;>
    rw [h] at hf <;> cases hf
  · exact ⟨s.script, s.faults, rfl⟩
  · exact ⟨rest, s.faults, rfl⟩
  all_goals
    obtain ⟨faults, hreads⟩ := recordReads_eq_faults c { s with script := rest }
    exact ⟨rest, faults, hreads⟩

/-! ### The responses taken and in flight (R40, R112, R113) -/

/-- The responses the host has taken, and then those in flight. -/
def State.responses (s : State) : List Resp := s.host.received ++ s.inFlight

theorem responses_eq (s : State) : s.responses = s.host.received ++ s.inFlight := rfl

/-- A response shown to a host that awaits one is taken. -/
theorem take_received {h : HostSide} {out : Option Resp} (hl : out.toList.length ≤ h.awaiting.length) :
    (h.take out).received = h.received ++ out.toList := by
  obtain ⟨ht, rfl | hn⟩ | ⟨r, d, ds, rfl, -, -, ht⟩ := take_cases h out
  · simp
  · obtain rfl : out = none := by simpa [hn] using hl
    simp
  · simpa using ht

theorem expect_received (d : Option Dest) (h : HostSide) : (h.expect d).received = h.received := rfl

/-- What a cycle shows, the host awaits. -/
theorem shown_length_le_awaiting {s : State} (hinv : s.Inv) (a : Option (RespWord × Dest)) :
    (shown s (a.map Prod.fst)).toList.length ≤ (s.host.expect (a.map Prod.snd)).awaiting.length := by
  obtain ⟨-, hreset, hsync⟩ := hinv
  have hlen := congrArg List.length (shown_append_inFlight_advance (.inr hreset) a)
  have ha : (a.map Prod.snd).toList.length = (a.map fun x => Resp.ofWord x.1).toList.length := by cases a <;> rfl
  unfold State.HostSync at hsync
  simp only [HostSide.expect, List.length_append] at hlen ⊢
  omega

/-- A cycle without a reset edge adds its answer, at the end. -/
theorem responses_advance {s : State} (hinv : s.Inv) (a : Option (RespWord × Dest)) :
    (advance a s).responses = s.responses ++ (a.map fun x => Resp.ofWord x.1).toList := by
  have hshown := shown_length_le_awaiting hinv a
  obtain ⟨-, hreset, -⟩ := hinv
  rw [responses_eq, advance_host, take_received hshown, expect_received, List.append_assoc,
    shown_append_inFlight_advance (.inr hreset), responses_eq, List.append_assoc]

theorem responses_transact {s : State} (hinv : s.Inv) (r : Resp) (d : Dest) :
    (transact r d s).responses = s.responses ++ [r] := by
  simpa using responses_advance hinv (some (r.word, d))

theorem responses_idleCycle {s : State} (hinv : s.Inv) : (idleCycle s).responses = s.responses := by
  simpa using responses_advance hinv none

/-- An instruction adds its answers, in order. -/
theorem responses_exec {i : Instr} {s t : State} (hinv : s.Inv) (hx : exec i s = .next t) :
    t.responses = s.responses ++ answers s.rom i := by
  obtain ⟨r, d, rfl, ha, -⟩ | ⟨rfl, ha⟩ | ⟨r₀, d₀, r₁, d₁, rfl, ha, -, -⟩ | ⟨p, rfl, ha⟩ := exec_cases hx <;> rw [ha]
  · exact responses_transact hinv r d
  · exact responses_transact (s := recordFault .illegalOp s) hinv reservedResp .plain
  · have hinv₀ : (transact r₀ d₀ s).Inv := inv_advance _ hinv
    rw [responses_transact hinv₀, responses_transact hinv, List.append_assoc]
    rfl
  · exact (List.append_nil _).symm

/-- A reset edge discards what is in flight, but for the response shown as it comes (R108). -/
theorem responses_resetCycle {s : State} (hinv : s.Inv) : (resetCycle s).inFlight = [] ∧
    (resetCycle s).host.received = s.host.received ++ (resetCycle s).outputs.toList := by
  have hshown : (shown s none).toList.length ≤ s.host.awaiting.length := by
    simpa [HostSide.expect] using shown_length_le_awaiting hinv none
  exact ⟨inFlight_of_emptyPipe (resetCycle_pipe s), take_received hshown⟩

/-- Settles O49: each response shown is one the host awaits, so it is taken, and each cycle moves the rest on in their
order behind it. -/
theorem responsesLeaveInRequestOrder : Obligations.ResponsesLeaveInRequestOrder := by
  intro s t hinv hstep
  have he := elaborates_of_step hstep
  refine ⟨fun i s' hf => ?_, fun s' hf => ?_, fun s' hf => ?_⟩ <;>
    obtain ⟨script, faults, rfl⟩ := eq_of_fetch_state? he (congrArg Fetched.state? hf) <;>
    simp only [step, hf] at hstep
  · exact responses_exec (s := { s with script, faults }) hinv hstep
  · cases hstep
    exact responses_idleCycle (s := { s with script, faults }) hinv
  · cases hstep
    exact responses_resetCycle (s := { s with script, faults }) hinv

end Sys2Proof.Machine
end

section
/-! PROOFS. The request word and its parts, the op decode and its bytes, the assembler's forms, the response word, and
what the wrapper does with a decoded word (spec/30_encoding.md). -/

namespace Sys2Proof

/-! ### The request word's parts (R49, R51) -/

/-- A request word is its op and its data (R49). -/
@[simp] theorem reqWord_reqOp_reqData (w : ReqWord) : reqWord (reqOp w) (reqData w) = w := by
  have hjoin := BitVec.extractLsb'_append_extractLsb'_eq_extractLsb' (x := w) (len₂ := 2) (show 8 = 0 + 8 from rfl)
  exact hjoin.trans BitVec.extractLsb'_eq_self

/-- R51's mask keeps the op and clears the data. -/
theorem and_opMask (w : ReqWord) : w &&& 0x300#10 = reqWord (reqOp w) 0#8 := by
  have hmask : w &&& 0x300#10 = (reqOp w ++ reqData w) &&& (0b11#2 ++ 0#8) := by
    rw [← reqWord, reqWord_reqOp_reqData]
    rfl
  have hones : reqOp w &&& 0b11#2 = reqOp w := BitVec.and_allOnes
  rw [hmask, BitVec.and_append, hones, BitVec.and_zero, reqWord]

/-- A word falls under a row's match and mask just where it has the row's op (R51). -/
theorem and_opMask_eq_iff (w : ReqWord) (op : BitVec 2) : w &&& 0x300#10 = reqWord op 0#8 ↔ reqOp w = op := by
  rw [and_opMask]
  exact ⟨fun h => by simpa using congrArg reqOp h, fun h => by rw [h]⟩

/-! ### Decode and encode (R51, R55) -/

/-- The encoder gives back the word that an instruction was decoded from, the ignored bits too. -/
@[simp] theorem encode_decode (w : ReqWord) : encode (decode w) = [w] := by
  obtain h | h | h | h := reqOp_cases w
  · rw [decode_of_op_enc h, encode, nibbles_high_low, ← h, reqWord_reqOp_reqData]
  · rw [decode_of_op_dec h, encode, ← h, reqWord_reqOp_reqData]
  · rw [decode_of_op_lut h, encode, nibbles_high_low, ← h, reqWord_reqOp_reqData]
  · rw [decode_of_op_reserved h, encode, ← h, reqWord_reqOp_reqData]

@[simp] theorem decode_reqWord_enc (data : Byte) :
    decode (reqWord 0b00#2 data) = .enc (highNibble data) (lowNibble data) := by simp [decode]

@[simp] theorem decode_reqWord_dec (data : Byte) : decode (reqWord 0b01#2 data) = .dec data := by simp [decode]

@[simp] theorem decode_reqWord_lut (data : Byte) :
    decode (reqWord 0b10#2 data) = .lut (highNibble data) (lowNibble data) := by simp [decode]

@[simp] theorem decode_reqWord_reserved (data : Byte) : decode (reqWord 0b11#2 data) = .reserved data := by
  simp [decode]

/-- An instruction of one request word is what that word decodes to: only the four requests have one word. -/
theorem decode_of_encode {i : Instr} {w : ReqWord} (h : encode i = [w]) : decode w = i := by
  cases i with
  | enc ignored n => obtain rfl := List.singleton_inj.mp h; simp
  | dec cw => obtain rfl := List.singleton_inj.mp h; simp
  | lut ignored s => obtain rfl := List.singleton_inj.mp h; simp
  | reserved ignored => obtain rfl := List.singleton_inj.mp h; simp
  | gf2Matmul a b => cases h
  | encb b => cases h
  | decb c0 c1 => cases h

/-- Encoding as one word is the inverse of decoding. -/
theorem encode_eq_singleton_iff {i : Instr} {w : ReqWord} : encode i = [w] ↔ decode w = i :=
  ⟨decode_of_encode, fun h => h ▸ encode_decode w⟩

/-! ### The bytes of a request word (log 8) -/

@[simp] theorem decodeBytes_requestBytes (w : ReqWord) : decodeBytes (requestBytes w) = .ok (decode w) := by
  have hspare : ∀ op : BitVec 2, (op.setWidth 8).extractLsb' 2 6 = 0#6 := by decide
  have hop : ∀ op : BitVec 2, (op.setWidth 8).extractLsb' 0 2 = op := by decide
  have hword : reqWord (w.extractLsb' 8 2) (w.extractLsb' 0 8) = w := reqWord_reqOp_reqData w
  rw [requestBytes, decodeBytes, if_pos (hspare _), hop, hword]

/-- The bytes that decode are those of a request word. -/
theorem exists_requestBytes_of_decodeBytes {bytes : List Byte} {i : Instr} (h : decodeBytes bytes = .ok i) :
    ∃ w, bytes = requestBytes w := by
  have hbyte : ∀ b : Byte, b.extractLsb' 2 6 = 0#6 → (b.extractLsb' 0 2).setWidth 8 = b := by decide
  unfold decodeBytes at h
  split at h
  · next b0 b1 =>
    split at h
    · next hspare =>
      refine ⟨reqWord (b1.extractLsb' 0 2) b0, ?_⟩
      have hdata := reqData_reqWord (b1.extractLsb' 0 2) b0
      have hop := reqOp_reqWord (b1.extractLsb' 0 2) b0
      rw [requestBytes, ← reqData, ← reqOp, hdata, hop, hbyte b1 hspare]
    · cases h
  · cases h

/-- Settles O8: the bytes that decode are a request word's, they decode as the word does, and encoding as one word is
the inverse of that. -/
theorem bytesDecodeExactlyToWhatEncodesToThem : Obligations.BytesDecodeExactlyToWhatEncodesToThem := by
  intro bytes i
  constructor
  · intro h
    obtain ⟨w, rfl⟩ := exists_requestBytes_of_decodeBytes h
    rw [decodeBytes_requestBytes, Except.ok.injEq] at h
    exact ⟨w, encode_eq_singleton_iff.mpr h, rfl⟩
  · rintro ⟨w, hw, rfl⟩
    rw [decodeBytes_requestBytes, encode_eq_singleton_iff.mp hw]

/-- Settles O7, by the op that each word begins with. -/
theorem writtenOutRequestWordsDecode : Obligations.WrittenOutRequestWordsDecode :=
  ⟨decode_of_op_enc rfl, decode_of_op_enc rfl, decode_of_op_dec rfl, decode_of_op_lut rfl, decode_of_op_reserved rfl⟩

/-- Settles O9: each word of an expansion decodes to the request it was made for. -/
theorem pseudoInstructionsEncodeAsTheirExpansion : Obligations.PseudoInstructionsEncodeAsTheirExpansion := by
  refine ⟨fun b => ?_, fun c0 c1 => ?_, fun _ _ => rfl⟩
  · simp only [encode, List.map_cons, List.map_nil, decode_reqWord_enc, highNibble_nibbles, lowNibble_nibbles]
    rfl
  · simp only [encode, List.map_cons, List.map_nil, decode_reqWord_dec]

/-! ### The assembler's operands (R58) -/

/-- A form of one operand gives its instruction where the operand is in range, and else refuses. -/
theorem map_oneOperand {t : List Char} {n : Nat} (h : immediate t = some n) (bound : Nat) (f : Nat → Instr) :
    (oneOperand bound [t]).map f = if n < bound then .ok (f n) else .error .outOfRange := by
  have hoperand : oneOperand bound [t] = if n < bound then .ok n else .error .outOfRange := by
    simp [oneOperand, operand, h]
  rw [hoperand]
  split <;> rfl

/-- DECB gives its instruction where both operands are in range, and else refuses. -/
theorem assemble_decb {t t' : List Char} {n n' : Nat} (h : immediate t = some n) (h' : immediate t' = some n') :
    assemble ['D', 'E', 'C', 'B'] [t, t'] =
      if n < 256 ∧ n' < 256 then .ok (.decb (BitVec.ofNat 8 n) (BitVec.ofNat 8 n')) else .error .outOfRange := by
  by_cases hn : n < 256 <;> by_cases hn' : n' < 256 <;>
    simp [assemble, operand, h, h', hn, hn', bind, Except.bind]

/-- A request word as a number: the op's weight is 256 (R49). -/
theorem reqWord_ofNat {n : Nat} (hn : n < 256) (op : BitVec 2) :
    reqWord op (BitVec.ofNat 8 n) = BitVec.ofNat 10 (256 * op.toNat + n) := by
  have hop := op.isLt
  apply BitVec.eq_of_toNat_eq
  rw [reqWord, BitVec.toNat_append, BitVec.toNat_ofNat, BitVec.toNat_ofNat, Nat.mod_eq_of_lt (by simpa using hn),
    ← Nat.shiftLeft_add_eq_or_of_lt (by simpa using hn), Nat.shiftLeft_eq]
  omega

/-- A nibble below four zero bits is the same number (R58). -/
theorem nibbles_zero_ofNat {n : Nat} (hn : n < 16) : nibbles 0#4 (BitVec.ofNat 4 n) = BitVec.ofNat 8 n := by
  have hmod : n % 16 = n % 256 := by omega
  apply BitVec.eq_of_toNat_eq
  rw [nibbles, BitVec.toNat_append]
  simpa using hmod

theorem lowNibble_ofNat (n : Nat) : lowNibble (BitVec.ofNat 8 n) = BitVec.ofNat 4 (n % 16) := by
  apply BitVec.eq_of_toNat_eq
  simp [lowNibble]

theorem highNibble_ofNat {n : Nat} (hn : n < 256) : highNibble (BitVec.ofNat 8 n) = BitVec.ofNat 4 (n / 16) := by
  have hdiv : n % 256 / 16 % 16 = n / 16 % 16 := by omega
  apply BitVec.eq_of_toNat_eq
  simpa [highNibble, Nat.shiftRight_eq_div_pow] using hdiv

/-- A request with a nibble in a byte of its own, as a number. -/
theorem reqWord_nibble_ofNat {n : Nat} (hn : n < 16) (op : BitVec 2) :
    reqWord op (nibbles 0#4 (BitVec.ofNat 4 n)) = BitVec.ofNat 10 (256 * op.toNat + n) := by
  rw [nibbles_zero_ofNat hn, reqWord_ofNat (by omega)]

/-- Settles O10: each form refuses just the operands past its bound, and its words are the op's weight and the
operand. -/
theorem assemblerKeepsOperandRanges : Obligations.AssemblerKeepsOperandRanges := by
  intro t n h
  refine ⟨map_oneOperand h 16 _, map_oneOperand h 256 _, map_oneOperand h 16 _, map_oneOperand h 1024 _,
    map_oneOperand h 256 _, fun t' n' h' => ⟨assemble_decb h h', fun hn hn' => ?_⟩, fun hn => ⟨?_, ?_⟩,
    fun hn => ⟨?_, ?_⟩, fun _ => encode_decode _⟩
  · rw [encode, reqWord_ofNat hn, reqWord_ofNat hn']; rfl
  · exact List.singleton_inj.mpr (reqWord_nibble_ofNat hn 0b00#2)
  · exact List.singleton_inj.mpr (reqWord_nibble_ofNat hn 0b10#2)
  · rw [encode, reqWord_ofNat hn]; rfl
  · rw [encode, lowNibble_ofNat, highNibble_ofNat hn, reqWord_nibble_ofNat (Nat.mod_lt _ (by decide)),
      reqWord_nibble_ofNat (by omega)]
    simp

/-! ### The response word and the action codes (R50, R59, R60) -/

theorem Status.code_ofCode : ∀ c : BitVec 2, (Status.ofCode c).code = c := by decide

/-- The word put together from the fields of a response word is that word. -/
theorem Resp.word_ofWord (w : RespWord) : (Resp.ofWord w).word = w := by
  simp only [Resp.word, Resp.ofWord, Status.code_ofCode]
  have hstatus : w.extractLsb' 9 8 ++ w.extractLsb' 7 2 = w.extractLsb' 7 10 :=
    BitVec.extractLsb'_append_extractLsb'_eq_extractLsb' rfl
  have hsyn : w.extractLsb' 7 10 ++ w.extractLsb' 3 4 = w.extractLsb' 3 14 :=
    BitVec.extractLsb'_append_extractLsb'_eq_extractLsb' rfl
  have hpos : w.extractLsb' 3 14 ++ w.extractLsb' 0 3 = w.extractLsb' 0 17 :=
    BitVec.extractLsb'_append_extractLsb'_eq_extractLsb' rfl
  rw [hstatus, hsyn, hpos, BitVec.extractLsb'_eq_self]

/-- Settles O4: the fields stand side by side, and the four status codes are distinct and all named. -/
theorem responseWordFieldsArePlacedAndInvertible : Obligations.ResponseWordFieldsArePlacedAndInvertible :=
  ⟨Resp.word_fields, Resp.ofWord_word, Resp.word_ofWord⟩

/-- Kind 11 is never produced (R60). -/
theorem Action.kind_ne_11 (a : Action) : a.kind ≠ 0b11#2 := by cases a <;> simp [Action.kind]

/-- The kind of an action is the code of its status (R60, R86). -/
theorem Action.status_code (a : Action) : a.status.code = a.kind := by cases a <;> rfl

/-- Settles O5, action by action. -/
theorem statusAndActionCodes : Obligations.StatusAndActionCodes :=
  ⟨⟨rfl, rfl, rfl, rfl⟩, rfl, fun _ => rfl, rfl, fun a => ⟨a.kind_ne_11, a.status_code⟩⟩

end Sys2Proof
end

section
/-! PROOFS. What the wrapper does with a request word, and with none: the reserved op, the ignored bits, a cycle of the
host's script, and that no ILLEGAL_OP goes unrecorded (spec/30_encoding.md). -/

namespace Sys2Proof.Machine

/-! ### A decoded word is run (R51, R53 to R55) -/

/-- The wrapper answers every request word, in every state (R55). -/
theorem exec_decode_next (w : ReqWord) (s : State) : ∃ t, exec (decode w) s = .next t := by
  obtain h | h | h | h := reqOp_cases w
  · rw [decode_of_op_enc h]; exact ⟨_, rfl⟩
  · rw [decode_of_op_dec h]; exact ⟨_, rfl⟩
  · rw [decode_of_op_lut h]; exact ⟨_, rfl⟩
  · rw [decode_of_op_reserved h]; exact ⟨_, rfl⟩

theorem lowNibble_reqData (w : ReqWord) : lowNibble (reqData w) = w.extractLsb' 0 4 :=
  BitVec.extractLsb'_extractLsb'_of_le (by decide)

theorem highNibble_reqData (w : ReqWord) : highNibble (reqData w) = w.extractLsb' 4 4 :=
  BitVec.extractLsb'_extractLsb'_of_le (by decide)

/-- Settles O6: the op is one of four codes, and each is the match of one row. -/
theorem everyRequestWordDecodesToItsRow : Obligations.EveryRequestWordDecodesToItsRow := by
  intro w
  refine ⟨exec_decode_next w, ?_⟩
  rw [← highNibble_reqData, ← lowNibble_reqData]
  obtain h | h | h | h := reqOp_cases w
  · exact .inl ⟨(and_opMask_eq_iff w _).mpr h, decode_of_op_enc h⟩
  · exact .inr (.inl ⟨(and_opMask_eq_iff w _).mpr h, decode_of_op_dec h⟩)
  · exact .inr (.inr (.inl ⟨(and_opMask_eq_iff w _).mpr h, decode_of_op_lut h⟩))
  · exact .inr (.inr (.inr ⟨(and_opMask_eq_iff w _).mpr h, decode_of_op_reserved h⟩))

/-- A fault recorded before the cycle does not matter to the answer. -/
theorem answered_of_recordFault {f : Fault} {s t : State} {r : Resp} {d : Dest}
    (h : Answered (recordFault f s) t r d) : Answered s t r d := { h with }

/-- Settles O28: the fault is recorded and then one cycle answers the request. -/
theorem reservedOpAnswersIllegalOpAndRecordsTheFault :
    Obligations.ReservedOpAnswersIllegalOpAndRecordsTheFault := by
  intro s w hw
  have hop : reqOp w = 0b11#2 := (and_opMask_eq_iff w 0b11#2).mp hw
  refine ⟨_, by rw [decode_of_op_reserved hop, exec_reserved], rfl, ?_⟩
  exact answered_of_recordFault (answered_transact reservedResp .plain (recordFault .illegalOp s))

/-- Settles O29: the meanings of ENC and LUT are of the low nibble alone, and the reserved op's of no bit. -/
theorem ignoredRequestBitsDoNotMatter : Obligations.IgnoredRequestBitsDoNotMatter := by
  intro s w w' hop
  constructor
  · intro h hlow
    rw [← lowNibble_reqData, ← lowNibble_reqData] at hlow
    obtain h | h := h
    · rw [decode_of_op_enc h, decode_of_op_enc (hop ▸ h), exec_enc, exec_enc, hlow]
      exact ⟨rfl, _, rfl, rfl⟩
    · rw [decode_of_op_lut h, decode_of_op_lut (hop ▸ h), exec_lut, exec_lut, hlow]
      exact ⟨rfl, _, rfl, rfl⟩
  · intro h
    rw [decode_of_op_reserved h, decode_of_op_reserved (hop ▸ h), exec_reserved, exec_reserved]

/-! ### A standalone product (R69 to R71) -/

theorem matmulDefect_eq_none {a b : BitMatrix} (hr : 1 ≤ a.rows) (hi : 1 ≤ a.cols) (hc : 1 ≤ b.cols)
    (h : a.cols = b.rows) : matmulDefect a b = none := by
  rw [matmulDefect, if_neg (by omega), if_neg (by omega)]

/-- Settles O30: no check refuses the product, and its entries are the dot products. -/
theorem standaloneProductCompletes : Obligations.StandaloneProductCompletes := by
  intro s a b hr hi hc h
  have hp := matmulDefect_eq_none hr hi hc h
  obtain ⟨rows, inner, a⟩ := a
  obtain ⟨inner', cols, b⟩ := b
  obtain rfl : inner = inner' := h
  refine ⟨⟨rows, cols, matmul rows inner cols a b⟩, ?_, rfl, rfl, fun r c hr hc => bmGet_matmul hr hc a b⟩
  rw [exec_gf2Matmul, matmul?, hp]
  simp

/-! ### A cycle of the host's script (R49, R98) -/

/-- A cycle without a reset edge runs the request it presents, and else is an idle one. -/
theorem step_cycle {s : State} {c : HostCycle} {rest : List HostEvent} (he : s.Elaborates)
    (hs : s.script = .cycle c :: rest) (hr : ¬ s.ResetsIn c) :
    step s = if c.reqValid then exec (decode c.req) (recordReads c { s with script := rest })
      else .next (idleCycle (recordReads c { s with script := rest })) := by
  have hd : scriptDefect (.cycle c :: rest) = none := hs ▸ he
  have hrst : ¬ (c.rst && !s.pipe.isEmpty) = true := by simpa using hr
  cases hv : c.reqValid <;> simp [step, fetch, hs, hd, hrst, hv]

theorem step_request {s : State} {c : HostCycle} {rest : List HostEvent} (he : s.Elaborates)
    (hs : s.script = .cycle c :: rest) (hr : ¬ s.ResetsIn c) (hv : c.reqValid = true) :
    step s = exec (decode c.req) (recordReads c { s with script := rest }) := by
  rw [step_cycle he hs hr, if_pos hv]

theorem step_noRequest {s : State} {c : HostCycle} {rest : List HostEvent} (he : s.Elaborates)
    (hs : s.script = .cycle c :: rest) (hr : ¬ s.ResetsIn c) (hv : c.reqValid = false) :
    step s = .next (idleCycle (recordReads c { s with script := rest })) := by
  rw [step_cycle he hs hr, hv]
  rfl

/-- A cycle that reads nothing records nothing. -/
theorem recordReads_of_reads_nil {c : HostCycle} (h : c.reads = []) (s : State) : recordReads c s = s := by
  simp [recordReads, h]

/-- A request presented with no reset and no read runs as what its word decodes to. -/
theorem step_present {s : State} (he : s.Elaborates) (w : ReqWord) : step (s.present w) = exec (decode w) s := by
  have hreset : ¬ (s.present w).ResetsIn (presentCycle w) := fun h => Bool.false_ne_true h.left
  rw [step_request (s := s.present w) he rfl hreset rfl, recordReads_of_reads_nil rfl]
  rfl

/-- Settles O36: the bytes of a word decode as the word does, and the step runs what the word decodes to. -/
theorem stepRunsTheDecodedRequest : Obligations.StepRunsTheDecodedRequest := by
  refine ⟨fun s c rest i he hs hv hr hi => ?_, fun s i rest he hs => step_instr he hs, fun s w he => step_present he w⟩
  rw [decodeBytes_requestBytes, Except.ok.injEq] at hi
  rw [step_request he hs hr hv, hi]

/-- While `req_valid` = 0 the request word is ignored, in a run that is refused too (R49). -/
theorem step_req_irrelevant {s : State} {c : HostCycle} {rest : List HostEvent} (hs : s.script = .cycle c :: rest)
    (hr : ¬ s.ResetsIn c) (hv : c.reqValid = false) (w : ReqWord) :
    step { s with script := .cycle { c with req := w } :: rest } = step s := by
  have hdefect : scriptDefect s.script = scriptDefect rest := by rw [hs, scriptDefect_cycle]
  cases hd : scriptDefect rest with
  | some v =>
    rw [step_of_scriptDefect (hdefect.trans hd),
      step_of_scriptDefect (s := { s with script := .cycle { c with req := w } :: rest }) hd]
  | none =>
    rw [step_noRequest (hdefect.trans hd) hs hr hv,
      step_noRequest (s := { s with script := .cycle { c with req := w } :: rest }) hd rfl hr hv]
    rfl

/-- What an idle cycle shows and leaves in the pipeline (R111, R112). -/
theorem idleCycle_spec (s : State) :
    (s.pipe = [] → (idleCycle s).respValid = false ∧ (idleCycle s).outputs = none) ∧
      (s.pipe ≠ [] → s.resetSeen = true →
        ∃ st, (idleCycle s).pipe = st :: s.pipe.dropLast ∧ st.pv = false) := by
  refine ⟨fun hp => ?_, fun hp hreset => ?_⟩
  · simp [respValid_combinational hp, shown, shownWord_combinational hp]
  · refine ⟨inputStage (s.cycle + 1) none, ?_, rfl⟩
    rw [idleCycle_eq_advance, advance_pipe, Option.map_none, nextPipe_of_resetSeen hreset, shiftPipe_of_ne_nil hp]

/-- An idle cycle awaits nothing more. -/
theorem idleCycle_awaiting_length_le (s : State) :
    (idleCycle s).host.awaiting.length ≤ s.host.awaiting.length := by
  simp [take_awaiting_length, HostSide.expect]

/-- Settles O38: the step is an idle cycle, whatever the request word. -/
theorem noTransactionWithoutReqValid : Obligations.NoTransactionWithoutReqValid := by
  intro s c rest w hs hv hr
  refine ⟨step_req_irrelevant hs hr hv w, fun he => ⟨_, step_noRequest he hs hr hv, ?_⟩⟩
  have hidle := idleCycle_spec (recordReads c { s with script := rest })
  have hawaiting := idleCycle_awaiting_length_le (recordReads c { s with script := rest })
  rw [recordReads_pipe, recordReads_resetSeen] at hidle
  rw [recordReads_host] at hawaiting
  exact ⟨hidle.left, hidle.right, by simp, hawaiting⟩

/-! ### ILLEGAL_OP is recorded (R54, R59, R96) -/

/-- Every response that the host has taken, that is shown or that is in flight. -/
def State.visible (s : State) : List Resp := s.host.received ++ s.outputs.toList ++ s.inFlight

theorem mem_visible {s : State} {r : Resp} :
    r ∈ s.visible ↔ r ∈ s.host.received ∨ r ∈ s.outputs.toList ∨ r ∈ s.inFlight := by
  simp [State.visible]

/-- What a cycle shows or leaves in flight was in flight, or is its answer. -/
theorem mem_shown_or_inFlight_advance {s : State} {a : Option (RespWord × Dest)} {r : Resp}
    (h : r ∈ (shown s (a.map Prod.fst)).toList ∨ r ∈ (advance a s).inFlight) :
    r ∈ s.inFlight ∨ r ∈ (a.map fun x => Resp.ofWord x.1).toList := by
  by_cases hm : s.pipe = [] ∨ s.resetSeen = true
  · rwa [← List.mem_append, shown_append_inFlight_advance hm, List.mem_append] at h
  · obtain ⟨hp, hreset⟩ : s.pipe ≠ [] ∧ s.resetSeen = false := by simpa using hm
    have hflight : (advance a s).inFlight = [] := inFlight_of_not_resetSeen hreset
    simp [shown, shownWord_of_not_resetSeen hp hreset, hflight] at h

/-- A host takes nothing but what is shown. -/
theorem mem_take_received {h : HostSide} {out : Option Resp} {r : Resp} (hr : r ∈ (h.take out).received) :
    r ∈ h.received ∨ r ∈ out.toList := by
  obtain ⟨ht, -⟩ | ⟨r', d, ds, rfl, -, -, ht⟩ := take_cases h out
  · exact .inl (ht ▸ hr)
  · simpa [ht] using hr

/-- A cycle makes no response visible but its answer. -/
theorem mem_visible_advance {s : State} {a : Option (RespWord × Dest)} {r : Resp} (h : r ∈ (advance a s).visible) :
    r ∈ s.visible ∨ r ∈ (a.map fun x => Resp.ofWord x.1).toList := by
  have hold : r ∈ s.host.received ∨ r ∈ (shown s (a.map Prod.fst)).toList ∨ r ∈ (advance a s).inFlight := by
    obtain h | h := mem_visible.mp h
    · exact (mem_take_received h).imp_right .inl
    · exact .inr h
  obtain h | h := hold
  · exact .inl (mem_visible.mpr (.inl h))
  · exact (mem_shown_or_inFlight_advance h).imp_left fun h => mem_visible.mpr (.inr (.inr h))

/-- A reset edge makes no response visible. -/
theorem mem_visible_resetCycle {s : State} {r : Resp} (h : r ∈ (resetCycle s).visible) : r ∈ s.visible := by
  have hflight : (resetCycle s).inFlight = [] := inFlight_of_emptyPipe (resetCycle_pipe s)
  have hold : r ∈ s.host.received ∨ r ∈ (shown s none).toList := by
    obtain h | h | h := mem_visible.mp h
    · exact mem_take_received h
    · exact .inr h
    · simp [hflight] at h
  obtain h | h := hold
  · exact mem_visible.mpr (.inl h)
  · have hin := mem_shown_or_inFlight_advance (a := none) (.inl h)
    exact mem_visible.mpr (.inr (.inr (by simpa using hin)))

@[simp] theorem recordReads_visible (c : HostCycle) (s : State) : (recordReads c s).visible = s.visible := by
  simp [State.visible]

/-- Recorded reads add to the fault record and take nothing from it. -/
theorem illegalOpRecorded_recordReads {c : HostCycle} {s : State} (h : s.IllegalOpRecorded) :
    (recordReads c s).IllegalOpRecorded := by
  unfold recordReads
  split
  · exact h
  · rw [State.IllegalOpRecorded, List.map_append]
    exact List.mem_append_left _ h

/-- Where no response with status ILLEGAL_OP becomes visible and the record keeps the fault, none is unrecorded. -/
theorem illegalStatusRecorded_of_visible {s t : State} (hs : s.IllegalStatusRecorded)
    (hvisible : ∀ r ∈ t.visible, r.status = .illegalOp → r ∈ s.visible)
    (hfaults : s.IllegalOpRecorded → t.IllegalOpRecorded) : t.IllegalStatusRecorded :=
  fun r hr hst => hfaults (hs r (hvisible r hr hst) hst)

/-- Settles O44: a cycle makes no response visible but its request's answer; that one's status is ILLEGAL_OP for the
reserved op alone, whose fault is recorded first. -/
theorem illegalStatusNeverGoesUnrecorded : Obligations.IllegalStatusNeverGoesUnrecorded := by
  intro s t hs hstep
  refine step_preserves (P := State.IllegalStatusRecorded) ?script ?reads ?idle ?reset ?request ?reserved ?product
    hstep hs
  case script => exact fun _ _ h => h
  case product => exact fun _ _ h => h
  case reads =>
    intro c s h
    exact illegalStatusRecorded_of_visible h (fun r hr _ => by simpa using hr) illegalOpRecorded_recordReads
  case idle =>
    intro s h
    refine illegalStatusRecorded_of_visible h (fun r hr _ => ?_) id
    simpa using mem_visible_advance (a := none) hr
  case reset =>
    intro s _ h
    exact illegalStatusRecorded_of_visible h (fun r hr _ => mem_visible_resetCycle hr) id
  case request =>
    intro r d s hr h
    refine illegalStatusRecorded_of_visible h (fun r' hr' hst => ?_) id
    obtain h' | h' := mem_visible_advance hr'
    · exact h'
    · obtain rfl : r' = r := by simpa using h'
      exact absurd hst hr
  case reserved =>
    intro s _ r _ _
    simp [State.IllegalOpRecorded]

end Sys2Proof.Machine
end

section
/-! PROOFS. The primitives with their checks: what each answers in range and out of range, and what it leaves of every
other bit or element (spec/40_gf2_primitives.md). -/

namespace Sys2Proof

/-! ### The checks (R61 to R65, R93) -/

/-- An operation whose index is in range is wired. -/
theorem checkIndex_map_of_lt {α : Type} {n i : Nat} (h : i < n) (f : Unit → α) :
    (checkIndex n i).map f = .ok (f ()) := by rw [checkIndex, if_pos h]; rfl

/-- An operation whose index is out of range is refused. -/
theorem checkIndex_map_of_le {α : Type} {n i : Nat} (h : n ≤ i) (f : Unit → α) :
    (checkIndex n i).map f = .error .indexOutOfRange := by rw [checkIndex, if_neg (Nat.not_lt.mpr h)]; rfl

/-- An operation on an element of the matrix is wired. -/
theorem checkElement_map_of_lt {α : Type} {R C r c : Nat} (hr : r < R) (hc : c < C) (f : Unit → α) :
    (checkElement R C r c).map f = .ok (f ()) := by rw [checkElement, if_pos ⟨hr, hc⟩]; rfl

/-- An operation with a row or a column out of range is refused, whatever its flat index (D15). -/
theorem checkElement_map_of_not {α : Type} {R C r c : Nat} (h : ¬ (r < R ∧ c < C)) (f : Unit → α) :
    (checkElement R C r c).map f = .error .indexOutOfRange := by rw [checkElement, if_neg h]; rfl

/-! ### One bit of a vector (R61 to R64) -/

theorem bvGet_bvClr {n : Nat} (v : BitVec n) (i j : Nat) : bvGet (bvClr v i) j = (bvGet v j && !decide (i = j)) := by
  by_cases hj : j < n
  · simp [bvGet, bvClr, hj, eq_comm (a := i)]
  · simp [bvGet, bvClr, BitVec.getLsbD_of_ge _ _ (Nat.not_lt.mp hj)]

section
variable {n i : Nat} (v : BitVec n)

theorem bvSet_changes_only (h : i < n) :
    bvGet (bvSet v i) i = true ∧ ∀ j, j ≠ i → bvGet (bvSet v i) j = bvGet v j :=
  ⟨by simp [bvGet_bvSet, h], fun j hj => by simp [bvGet_bvSet, hj.symm]⟩

theorem bvClr_changes_only : bvGet (bvClr v i) i = false ∧ ∀ j, j ≠ i → bvGet (bvClr v i) j = bvGet v j :=
  ⟨by simp [bvGet_bvClr], fun j hj => by simp [bvGet_bvClr, hj.symm]⟩

theorem bvXor_changes_only (h : i < n) (bit : Bool) :
    bvGet (bvXor v i bit) i = (bvGet v i ^^ bit) ∧ ∀ j, j ≠ i → bvGet (bvXor v i bit) j = bvGet v j :=
  ⟨by simp [bvGet_bvXor, h], fun j hj => by simp [bvGet_bvXor, hj.symm]⟩

end

/-- Settles O11: the check decides, and each primitive changes its one bit only. -/
theorem bitPrimitivesActOnOneBitInRange : Obligations.BitPrimitivesActOnOneBitInRange := by
  intro n v i bit
  constructor
  · intro h
    exact ⟨checkIndex_map_of_le h _, checkIndex_map_of_le h _, checkIndex_map_of_le h _, checkIndex_map_of_le h _⟩
  · intro h
    exact ⟨checkIndex_map_of_lt h _, ⟨_, checkIndex_map_of_lt h _, bvSet_changes_only v h⟩,
      ⟨_, checkIndex_map_of_lt h _, bvClr_changes_only v⟩, ⟨_, checkIndex_map_of_lt h _, bvXor_changes_only v h bit⟩⟩

/-! ### One element of a matrix (R35, R65) -/

/-- A matrix that differs in one bit only differs in one element only: no two elements share a flat place. -/
theorem bmGet_of_changes_only {R C r c r' c' : Nat} (hc : c < C) (hc' : c' < C) {m u : BitVec (R * C)} {b : Bool}
    (hu : bvGet u (flatIndex C r c) = b ∧ ∀ j, j ≠ flatIndex C r c → bvGet u j = bvGet m j) :
    bmGet u r' c' = if r' = r ∧ c' = c then b else bmGet m r' c' := by
  obtain ⟨hsame, hother⟩ := hu
  split
  next h => obtain ⟨rfl, rfl⟩ := h; exact hsame
  next h => exact hother _ (mt (flatIndex_inj hc' hc).mp h)

/-- Settles O12: the check decides, and an element access is a bit access at the element's own flat place. -/
theorem matrixElementsAreRowMajorAndChecked : Obligations.MatrixElementsAreRowMajorAndChecked := by
  intro R C m r c bit
  constructor
  · intro h
    exact ⟨checkElement_map_of_not h _, checkElement_map_of_not h _, checkElement_map_of_not h _,
      checkElement_map_of_not h _⟩
  · intro hr hc
    have hlt : flatIndex C r c < R * C := flatIndex_lt hr hc
    refine ⟨bmGet?_eq_ok hr hc m, _, _, _, checkElement_map_of_lt hr hc _, checkElement_map_of_lt hr hc _,
      bmXor?_eq_ok hr hc m bit, fun r' c' _ hc' => ?_⟩
    exact ⟨bmGet_of_changes_only hc hc' (bvSet_changes_only m hlt),
      bmGet_of_changes_only hc hc' (bvClr_changes_only m),
      bmGet_of_changes_only hc hc' (bvXor_changes_only m hlt bit)⟩

/-! ### Bytes and row vectors with their checks (R66 to R68) -/

/-- A row vector of more than 8 bits is not made from a byte (R67). -/
theorem fromByte?_of_gt {length : Nat} (h : 8 < length) (value : Byte) :
    fromByte? value length = .error .fromByteLength := by rw [fromByte?, if_neg (by omega), if_pos h]

/-- Settles O13: in range the checked forms are the wired ones, whose bits are known. -/
theorem bytesAndRowVectorsConvert : Obligations.BytesAndRowVectorsConvert := by
  refine ⟨fun _ _ => rfl, fun v len => ⟨?zero, fun h => fromByte?_of_gt h v, fun h h' => ?inRange⟩,
    fun R C m _ i hi => bvGet_toByte m hi, toByte_fromByte⟩
  case zero => rintro rfl; rfl
  case inRange => exact ⟨_, fromByte?_eq_ok h h' v, fun i hi => bmGet_fromByte hi v⟩

end Sys2Proof
end

section
/-! PROOFS. The matrix product as algebra: its entries, what an entry depends on and associativity; and the refusals
of a standalone product (spec/41_gf2_matrix_mult.md). -/

namespace Sys2Proof

/-! ### An entry and what it depends on (R71, R72) -/

/-- Settles O15: the loops of R71 accumulate the dot product into the entry. -/
theorem productEntriesAreDotProductsModTwo : Obligations.ProductEntriesAreDotProductsModTwo :=
  fun _ _ _ a b _ _ hr hc => bmGet_matmul hr hc a b

theorem dotProduct_congr {R I C r c : Nat} {a a' : BitVec (R * I)} {b b' : BitVec (I * C)}
    (ha : ∀ i < I, bmGet a r i = bmGet a' r i) (hb : ∀ i < I, bmGet b i c = bmGet b' i c) :
    dotProduct a b r c = dotProduct a' b' r c := by
  unfold dotProduct
  congr 1
  refine List.map_congr_left fun i hi => ?_
  rw [ha i (List.mem_range.mp hi), hb i (List.mem_range.mp hi)]

/-- Settles O16: the entry is the dot product of that row and that column. -/
theorem productEntryDependsOnItsRowAndColumn : Obligations.ProductEntryDependsOnItsRowAndColumn := by
  intro R I C a a' b b' r c hr hc ha hb
  rw [bmGet_matmul hr hc, bmGet_matmul hr hc, dotProduct_congr ha hb]

/-! ### Associativity (R75) -/

/-- A factor on the right multiplies each term of a sum modulo 2. -/
theorem foldr_xor_map_and_right {α : Type} (l : List α) (f : α → Bool) (y : Bool) :
    ((l.map f).foldr Bool.xor false && y) = (l.map fun x => f x && y).foldr Bool.xor false := by
  induction l with
  | nil => rfl
  | cons x l ih => simp [Bool.and_xor_distrib_right, ih]

/-- A factor on the left multiplies each term of a sum modulo 2. -/
theorem foldr_xor_map_and_left {α : Type} (l : List α) (f : α → Bool) (y : Bool) :
    (y && (l.map f).foldr Bool.xor false) = (l.map fun x => y && f x).foldr Bool.xor false := by
  simp only [Bool.and_comm y, foldr_xor_map_and_right]

/-- The two sums of a double sum modulo 2 change places. -/
theorem foldr_xor_map_comm {α β : Type} (l : List α) (m : List β) (f : α → β → Bool) :
    (l.map fun x => (m.map (f x)).foldr Bool.xor false).foldr Bool.xor false =
      (m.map fun y => (l.map fun x => f x y).foldr Bool.xor false).foldr Bool.xor false := by
  induction l with
  | nil => exact (foldr_xor_map_zero fun _ _ => rfl).symm
  | cons x l ih => simp [ih, foldr_xor_map_xor]

section
variable {R I J C r c : Nat} (a : BitVec (R * I)) (b : BitVec (I * J)) (d : BitVec (J * C))

theorem dotProduct_matmul_left (hr : r < R) :
    dotProduct (matmul R I J a b) d r c = ((List.range J).map fun j => ((List.range I).map fun i =>
      bmGet a r i && bmGet b i j && bmGet d j c).foldr Bool.xor false).foldr Bool.xor false := by
  rw [dotProduct]
  congr 1
  refine List.map_congr_left fun j hj => ?_
  rw [bmGet_matmul hr (List.mem_range.mp hj), dotProduct, foldr_xor_map_and_right]

theorem dotProduct_matmul_right (hc : c < C) :
    dotProduct a (matmul I J C b d) r c = ((List.range I).map fun i => ((List.range J).map fun j =>
      bmGet a r i && bmGet b i j && bmGet d j c).foldr Bool.xor false).foldr Bool.xor false := by
  rw [dotProduct]
  congr 1
  refine List.map_congr_left fun i hi => ?_
  simp only [bmGet_matmul (List.mem_range.mp hi) hc, dotProduct, foldr_xor_map_and_left, Bool.and_assoc]

end

/-- Settles O18: an entry of either product is the double sum over i and j of A[r,i] AND B[i,j] AND D[j,c], and the two
sums change places. -/
theorem productIsAssociative : Obligations.ProductIsAssociative := by
  intro R I J C a b d
  refine eq_of_bmGet_eq fun r c hr hc => ?_
  rw [bmGet_matmul hr hc, bmGet_matmul hr hc, dotProduct_matmul_left a b d hr, dotProduct_matmul_right a b d hc,
    foldr_xor_map_comm]

end Sys2Proof

namespace Sys2Proof.Machine

/-! ### The refusals of a standalone product (R69, R70, R93) -/

theorem matmulDefect_eq_zeroDimension {a b : BitMatrix} (h : a.rows = 0 ∨ a.cols = 0 ∨ b.rows = 0 ∨ b.cols = 0) :
    matmulDefect a b = some .zeroDimension := by
  rw [matmulDefect, if_pos h]

theorem matmulDefect_eq_dimensionMismatch {a b : BitMatrix} (har : 1 ≤ a.rows) (hac : 1 ≤ a.cols) (hbr : 1 ≤ b.rows)
    (hbc : 1 ≤ b.cols) (h : a.cols ≠ b.rows) : matmulDefect a b = some .dimensionMismatch := by
  rw [matmulDefect, if_neg (by omega), if_pos h]

/-- A product with a defect is refused, and the refusal names the defect. -/
theorem exec_gf2Matmul_of_defect {a b : BitMatrix} {v : Violation} (h : matmulDefect a b = some v) (s : State) :
    exec (.gf2Matmul a b) s = .refused (.contractViolation v) := by
  rw [exec_gf2Matmul, matmul?, h]

/-- Settles O31: a zero dimension is a defect, and else a mismatch is one. -/
theorem standaloneProductIsRefusedOnAViolation : Obligations.StandaloneProductIsRefusedOnAViolation :=
  fun s _ _ => ⟨fun h => exec_gf2Matmul_of_defect (matmulDefect_eq_zeroDimension h) s,
    fun har hac hbr hbc h => exec_gf2Matmul_of_defect (matmulDefect_eq_dimensionMismatch har hac hbr hbc h) s⟩

end Sys2Proof.Machine
end

section
/-! PROOFS. The encoder: linearity over any generator, the closed form over the wired one, and the ENC request
(spec/42_hamming_84_encoder.md). -/

namespace Sys2Proof

/-! ### The unit (R76 to R78) -/

/-- The encoder is linear (R76). -/
theorem encodeUnit_xor (rom : Rom) (m n : Msg) :
    encodeUnit rom (m ^^^ n) = encodeUnit rom m ^^^ encodeUnit rom n := by
  apply eq_of_bvGet_eq
  intro k hk
  simp only [bvGet_xor, bvGet_encodeUnit rom _ hk, Bool.and_xor_distrib_right, foldr_xor_map_xor]

/-- Settles O21: each codeword bit is a sum modulo 2 that the message enters linearly. -/
theorem encoderIsLinearForAnyGenerator : Obligations.EncoderIsLinearForAnyGenerator := encodeUnit_xor

/-- The systematic part of a codeword is the message, bit by bit (R78). -/
theorem getLsbD_encodeUnit_message (n : Msg) {k : Nat} (hk : k < 4) :
    (encodeUnit Rom.wired n).getLsbD k = n.getLsbD k := by
  have hlow := bvGet_lowNibble (encodeUnit Rom.wired n) hk
  rw [lowNibble_encodeUnit] at hlow
  exact hlow.symm

/-- Parity bit j is the sum modulo 2 of all message bits but bit j: G's column 4 + j is 0 in row j only (R28, R77). -/
theorem getLsbD_encodeUnit_parity (n : Msg) {j : Nat} (hj : j < 4) :
    (encodeUnit Rom.wired n).getLsbD (4 + j) =
      ((List.range 4).map fun i => n.getLsbD i && decide (i ≠ j)).foldr Bool.xor false := by
  obtain ⟨-, hparity, -⟩ := generatorAndCheckMatrixStructure
  have hcolumn : ∀ i < 4, bmGet (R := 4) (C := 8) Rom.wired.g i (4 + j) = decide (i ≠ j) :=
    fun i hi => hparity i hi j hj
  have hbit := bvGet_encodeUnit Rom.wired n (show 4 + j < 8 by omega)
  rw [List.map_congr_left fun i hi => by rw [hcolumn i (List.mem_range.mp hi)]] at hbit
  exact hbit

/-- Settles O20: four bits are the message's, and each parity bit leaves out one of them. -/
theorem encoderClosedFormIsSystematic : Obligations.EncoderClosedFormIsSystematic := by
  intro n
  have hmessage : ∀ k < 4, _ := fun _ hk => getLsbD_encodeUnit_message n hk
  have hparity : ∀ j < 4, _ := fun _ hj => getLsbD_encodeUnit_parity n hj
  refine ⟨⟨hmessage 0 (by decide), hmessage 1 (by decide), hmessage 2 (by decide), hmessage 3 (by decide)⟩,
    ?_, ?_, ?_, ?_, lowNibble_encodeUnit n⟩
  · simpa [List.range_succ] using hparity 0 (by decide)
  · simpa [List.range_succ] using hparity 1 (by decide)
  · simpa [List.range_succ] using hparity 2 (by decide)
  · simpa [List.range_succ] using hparity 3 (by decide)

end Sys2Proof

namespace Sys2Proof.Machine

/-! ### The request (R79) -/

/-- Settles O25: the word decodes to ENC of its low nibble, and one cycle answers that. -/
theorem encCompletesWithItsCodeword : Obligations.EncCompletesWithItsCodeword := by
  intro s w hrom hw
  have hop : reqOp w = 0b00#2 := (and_opMask_eq_iff w 0b00#2).mp hw
  have hexec : exec (decode w) s = .next (transact (encResp Rom.wired (w.extractLsb' 0 4)) .plain s) := by
    rw [decode_of_op_enc hop, exec_enc, hrom, lowNibble_reqData]
  exact ⟨_, hexec, rfl, answered_transact _ .plain s⟩

end Sys2Proof.Machine
end

section
/-! PROOFS. The syndrome table as the wrapper's LUT op reports it (spec/43_syndrome_lut.md). -/

namespace Sys2Proof

/-! ### The response (R81, R83) -/

/-- LUT reports the entry's status and position (R83). -/
theorem lutResp_of_lookup {rom : Rom} {syn : Syn} {a : Action} (h : lookup rom syn = a) :
    (lutResp rom syn).status = a.status ∧ (lutResp rom syn).pos = a.position := by
  rw [← h, lutResp]
  exact ⟨rfl, rfl⟩

/-- The wired unit looks up the listed table (R26, R81). -/
theorem lookup_wired (syn : Syn) : lookup Rom.wired syn = lutTable[syn.toNat]'syn.isLt := rfl

end Sys2Proof

namespace Sys2Proof.Machine

/-! ### The request (R83) -/

/-- Settles O27: the word decodes to LUT of its low nibble, one cycle answers that, and the answer is the entry's. -/
theorem lutCompletesWithItsEntry : Obligations.LutCompletesWithItsEntry := by
  intro s w hrom hw syn
  have hop : reqOp w = 0b10#2 := (and_opMask_eq_iff w 0b10#2).mp hw
  have hexec : exec (decode w) s = .next (transact (lutResp Rom.wired syn) .plain s) := by
    rw [decode_of_op_lut hop, exec_lut, hrom, lowNibble_reqData]
  rw [← lookup_wired syn]
  exact ⟨_, _, hexec, rfl, answered_transact _ .plain s, rfl, rfl,
    lutResp_of_lookup, lutResp_of_lookup, fun _ => lutResp_of_lookup⟩

end Sys2Proof.Machine
end

section
/-! PROOFS. The decoder: its outputs by the table's entry, the syndrome's closed form, one to three flipped bits, the
DEC request and how many received words have each status (spec/44_hamming_84_decoder.md). -/

namespace Sys2Proof

/-! ### Correction and outputs over any constants (R86 to R89) -/

@[simp] theorem correct_ok (c : Code) : correct c .ok = c := toByte_fromByte c

@[simp] theorem correct_err (c : Code) : correct c .err = c := toByte_fromByte c

theorem Action.status_ne_illegalOp (a : Action) : a.status ≠ .illegalOp := by cases a <;> simp [Action.status]

/-- The decoder's outputs by the table's entry for the syndrome (R87, R88). -/
theorem decodeUnit_of_lookup {rom : Rom} {c : Code} {a : Action} (h : lookup rom (syndrome rom c) = a) :
    decodeUnit rom c =
      { msg := lowNibble (correct c a), status := a.status, syn := syndrome rom c, pos := a.position } := by
  rw [← h, decodeUnit]

@[simp] theorem lowNibble_xor (c d : Code) : lowNibble (c ^^^ d) = lowNibble c ^^^ lowNibble d :=
  BitVec.extractLsb'_xor

/-- A flipped parity bit leaves the low nibble (R88). -/
theorem lowNibble_xor_twoPow_of_le (c : Code) {p : Pos} (hp : 4 ≤ p.toNat) :
    lowNibble (c ^^^ BitVec.twoPow 8 p.toNat) = lowNibble c := by
  have hzero : ∀ q : Pos, 4 ≤ q.toNat → lowNibble (BitVec.twoPow 8 q.toNat) = 0#4 := by decide
  rw [lowNibble_xor, hzero p hp, BitVec.xor_zero]

/-- Settles O23, by the three kinds of entry: only a position changes the codeword. -/
theorem decoderOutputsFollowTheTable : Obligations.DecoderOutputsFollowTheTable := by
  intro rom c
  refine ⟨rfl, Action.status_ne_illegalOp _, ⟨correct_ok c, correct_err c, correct_pos c⟩, rfl, ?_, ?_, ?_⟩
  · intro hok
    rw [decodeUnit_of_lookup hok, correct_ok]
    exact ⟨rfl, rfl, rfl⟩
  · intro herr
    rw [decodeUnit_of_lookup herr, correct_err]
    exact ⟨rfl, rfl, rfl⟩
  · intro p hpos
    rw [decodeUnit_of_lookup hpos, correct_pos]
    exact ⟨rfl, rfl, rfl, lowNibble_xor_twoPow_of_le c⟩

/-! ### The syndrome over the wired constants (R28, R85) -/

/-- Parity bits alone are their own syndrome: the last four rows of Ht are the identity (R28). -/
theorem syndrome_nibbles_zero : ∀ s : Syn, syndrome Rom.wired (nibbles s 0#4) = s := by decide

/-- Adding a codeword leaves the syndrome. -/
theorem syndrome_encodeUnit_xor (n : Msg) (e : Code) :
    syndrome Rom.wired (encodeUnit Rom.wired n ^^^ e) = syndrome Rom.wired e := by
  rw [syndrome_xor, syndrome_encodeUnit, BitVec.zero_xor]

/-- Adding a codeword adds its message to the low nibble (R78). -/
theorem lowNibble_encodeUnit_xor (n : Msg) (e : Code) :
    lowNibble (encodeUnit Rom.wired n ^^^ e) = n ^^^ lowNibble e := by
  rw [lowNibble_xor, lowNibble_encodeUnit]

/-- A received word is the codeword of its low nibble with the syndrome added to the parity bits. -/
theorem encodeUnit_xor_syndrome (c : Code) :
    encodeUnit Rom.wired (lowNibble c) ^^^ nibbles (syndrome Rom.wired c) 0#4 = c := by
  have herror := nibbles_high_low (encodeUnit Rom.wired (lowNibble c) ^^^ c)
  rw [lowNibble_encodeUnit_xor, BitVec.xor_self] at herror
  have hsyn := syndrome_nibbles_zero (highNibble (encodeUnit Rom.wired (lowNibble c) ^^^ c))
  rw [herror, syndrome_encodeUnit_xor] at hsyn
  rw [hsyn, herror, xor_cancel_left]

/-- Syndrome bit k is the parity bit of the received message plus the received one (R85). -/
theorem getLsbD_syndrome (c : Code) {k : Nat} (hk : k < 4) :
    (syndrome Rom.wired c).getLsbD k =
      ((encodeUnit Rom.wired (lowNibble c)).getLsbD (4 + k) ^^ c.getLsbD (4 + k)) := by
  have hhigh : highNibble (nibbles (syndrome Rom.wired c) 0#4) = syndrome Rom.wired c := highNibble_nibbles _ _
  have hparity : (nibbles (syndrome Rom.wired c) 0#4).getLsbD (4 + k) = (syndrome Rom.wired c).getLsbD k := by
    conv_rhs => rw [← hhigh, highNibble]
    simp [hk]
  have hword := congrArg (·.getLsbD (4 + k)) (encodeUnit_xor_syndrome c)
  simp only [BitVec.getLsbD_xor, hparity] at hword
  rw [← hword, ← Bool.xor_assoc, Bool.xor_self, Bool.false_xor]

/-- Row p of Ht, read as a nibble (R85). -/
def checkRow (p : Pos) : Syn := Rom.wired.ht.extractLsb' (4 * p.toNat) 4

/-- Flipping bit p adds row p of Ht to the syndrome (R85). -/
theorem syndrome_flip (c : Code) (p : Pos) :
    syndrome Rom.wired (c ^^^ BitVec.twoPow 8 p.toNat) = syndrome Rom.wired c ^^^ checkRow p := by
  rw [syndrome_xor, syndrome_twoPow, checkRow]

theorem checkRow_eq : ∀ p : Pos,
    checkRow p = [0xE#4, 0xD#4, 0xB#4, 0x7#4, 0x1#4, 0x2#4, 0x4#4, 0x8#4].getD p.toNat 0#4 := by decide

/-- Settles O22: each syndrome bit compares a parity bit computed anew with the received one, and a flipped bit adds
its row of Ht to a codeword's syndrome 0. -/
theorem syndromeClosedForm : Obligations.SyndromeClosedForm := by
  refine ⟨fun c => ?_, syndrome_encodeUnit, fun n p => ?_⟩
  · have hbit : ∀ k, (hk : k < 4) → _ := fun k hk =>
      (getLsbD_syndrome c hk).trans (by rw [getLsbD_encodeUnit_parity (lowNibble c) hk])
    refine ⟨?_, ?_, ?_, ?_⟩
    · simpa [List.range_succ, lowNibble] using hbit 0 (by decide)
    · simpa [List.range_succ, lowNibble] using hbit 1 (by decide)
    · simpa [List.range_succ, lowNibble] using hbit 2 (by decide)
    · simpa [List.range_succ, lowNibble] using hbit 3 (by decide)
  · rw [syndrome_flip, syndrome_encodeUnit, BitVec.zero_xor, checkRow_eq]

/-! ### One, two and three flipped bits (R91) -/

theorem lookup_checkRow (p : Pos) : lookup Rom.wired (checkRow p) = .pos p := lookup_row p

/-- No two rows of Ht add up to 0 or to a row, so the table has no position for their sum (R26). -/
theorem lookup_two_checkRows : ∀ p q : Pos, p < q → lookup Rom.wired (checkRow p ^^^ checkRow q) = .err := by decide

/-- Three rows of Ht add up to a fourth row, and the four bits are not all parity bits. -/
theorem exists_fourth_checkRow : ∀ p q r : Pos, p < q → q < r →
    ∃ u : Pos, checkRow p ^^^ checkRow q ^^^ checkRow r = checkRow u ∧
      lowNibble (BitVec.twoPow 8 p.toNat ^^^ BitVec.twoPow 8 q.toNat ^^^ BitVec.twoPow 8 r.toNat ^^^
        BitVec.twoPow 8 u.toNat) ≠ 0#4 := by decide

/-- Settles O24: the syndrome is the sum of the flipped bits' rows of Ht, whatever the message. For three bits it is
the row of a fourth, so the correction reaches another codeword. -/
theorem codeCorrectsOneAndDetectsTwoErrors : Obligations.CodeCorrectsOneAndDetectsTwoErrors := by
  refine ⟨fun m => ⟨decodeUnit_encodeUnit_msg m, ?_⟩, fun m p => ⟨decodeUnit_flipped_msg m p, ?_⟩,
    fun m p q hpq => ?_, fun m p q r hpq hqr => ?_⟩
  · have hok : lookup Rom.wired (syndrome Rom.wired (encodeUnit Rom.wired m)) = .ok := by
      rw [syndrome_encodeUnit]
      decide
    rw [decodeUnit_of_lookup hok, Action.status]
  · have hpos : lookup Rom.wired (syndrome Rom.wired (encodeUnit Rom.wired m ^^^ BitVec.twoPow 8 p.toNat)) =
        .pos p := by
      rw [syndrome_flip, syndrome_encodeUnit, BitVec.zero_xor, lookup_checkRow]
    rw [decodeUnit_of_lookup hpos]
    exact ⟨rfl, rfl⟩
  · have herr : lookup Rom.wired (syndrome Rom.wired
        (encodeUnit Rom.wired m ^^^ BitVec.twoPow 8 p.toNat ^^^ BitVec.twoPow 8 q.toNat)) = .err := by
      rw [syndrome_flip, syndrome_flip, syndrome_encodeUnit, BitVec.zero_xor, lookup_two_checkRows p q hpq]
    rw [decodeUnit_of_lookup herr, Action.status]
  · obtain ⟨u, hrow, hlow⟩ := exists_fourth_checkRow p q r hpq hqr
    have hpos : lookup Rom.wired (syndrome Rom.wired (encodeUnit Rom.wired m ^^^ BitVec.twoPow 8 p.toNat ^^^
        BitVec.twoPow 8 q.toNat ^^^ BitVec.twoPow 8 r.toNat)) = .pos u := by
      rw [syndrome_flip, syndrome_flip, syndrome_flip, syndrome_encodeUnit, BitVec.zero_xor, hrow, lookup_checkRow]
    rw [decodeUnit_of_lookup hpos, correct_pos]
    refine ⟨rfl, fun hmsg => hlow ?_⟩
    simpa [BitVec.xor_assoc, lowNibble_encodeUnit] using hmsg

/-! ### How many received words have each status (R90) -/

/-- A received word is a low nibble and a syndrome, each pair once. -/
def codeEquiv : Code ≃ Msg × Syn where
  toFun c := (lowNibble c, syndrome Rom.wired c)
  invFun x := encodeUnit Rom.wired x.1 ^^^ nibbles x.2 0#4
  left_inv := encodeUnit_xor_syndrome
  right_inv x := by simp [lowNibble_encodeUnit, syndrome_encodeUnit_xor, syndrome_nibbles_zero]

/-- The status comes from the syndrome alone, and each syndrome has 16 received words, one for each low nibble. -/
theorem card_decodeUnit_status (st : Status) :
    (Finset.univ.filter fun c => (decodeUnit Rom.wired c).status = st).card =
      16 * (Finset.univ.filter fun s => (lookup Rom.wired s).status = st).card := by
  have hmsg : (Finset.univ : Finset Msg).card = 16 := rfl
  rw [← hmsg, ← Finset.card_product]
  refine Finset.card_equiv codeEquiv fun c => ?_
  simp only [Finset.mem_filter_univ, Finset.mem_product, Finset.mem_univ, true_and]
  rfl

/-- Counting words of n bits by their numbers. -/
theorem length_filter_range_ofNat {n : Nat} (P : BitVec n → Prop) [DecidablePred P] :
    ((List.range (2 ^ n)).filter fun k => P (BitVec.ofNat n k)).length = (Finset.univ.filter P).card := by
  refine Finset.card_nbij' (s := (Finset.range (2 ^ n)).filter fun k => P (BitVec.ofNat n k)) (BitVec.ofNat n)
    BitVec.toNat ?_ ?_ ?_ ?_
  · intro k hk
    simpa using (Finset.mem_filter.mp hk).2
  · intro v hv
    simpa [v.isLt] using hv
  · intro k hk
    exact Nat.mod_eq_of_lt (Finset.mem_range.mp (Finset.mem_filter.mp hk).1)
  · intro v _
    simp

/-- The table has one OK, eight positions and seven ERR (R26). -/
theorem card_lookup_status : [Status.ok, .corrected, .uncorrectable].map (fun st =>
    (Finset.univ.filter fun s => (lookup Rom.wired s).status = st).card) = [1, 8, 7] := by decide

theorem length_filter_decodeUnit_status (st : Status) :
    ((List.range 256).filter fun k => (decodeUnit Rom.wired (BitVec.ofNat 8 k)).status = st).length =
      16 * (Finset.univ.filter fun s => (lookup Rom.wired s).status = st).card :=
  (length_filter_range_ofNat fun c : Code => (decodeUnit Rom.wired c).status = st).trans (card_decodeUnit_status st)

end Sys2Proof

namespace Sys2Proof.Machine

/-! ### The request (R90) -/

/-- Settles O26: the word decodes to DEC of its data and one cycle answers that; each of the table's 16 entries
stands for 16 received words. -/
theorem decCompletesWithItsDecoding : Obligations.DecCompletesWithItsDecoding := by
  refine ⟨fun s w hrom hw => ?_, ?_⟩
  · have hop : reqOp w = 0b01#2 := (and_opMask_eq_iff w 0b01#2).mp hw
    have hexec : exec (decode w) s = .next (transact (decResp Rom.wired (w.extractLsb' 0 8)) .plain s) := by
      rw [decode_of_op_dec hop, exec_dec, hrom, reqData]
    exact ⟨_, hexec, rfl, answered_transact _ .plain s⟩
  · simp only [length_filter_decodeUnit_status]
    exact congrArg (List.map (16 * ·)) card_lookup_status

end Sys2Proof.Machine
end

section
/-! PROOFS. Contract violations and model faults: the core's units pass every check, elaboration alone stops a step, and
the fault record grows by R96's two cases and is never cleared (spec/60_exceptions.md). -/

namespace Sys2Proof

/-! ### The core's units with every check made (R93) -/

/-- A computation goes on where its check passes. -/
theorem ok_bind {α β : Type} (x : α) (f : α → Except Violation β) : (Except.ok x >>= f) = f x := rfl

theorem encodeUnit?_eq_ok (rom : Rom) (n : Msg) : encodeUnit? rom n = .ok (encodeUnit rom n) := by
  simp [encodeUnit?, encodeUnit, ok_bind, fromByte?_eq_ok, matmulWired?_eq_ok, toByte?_eq_ok]

theorem syndrome?_eq_ok (rom : Rom) (c : Code) : syndrome? rom c = .ok (syndrome rom c) := by
  simp [syndrome?, syndrome, ok_bind, fromByte?_eq_ok, matmulWired?_eq_ok, toByte?_eq_ok, Except.map]

/-- The position of a correction is below 8 by its width, so the run-time index passes too (R87). -/
theorem correct?_eq_ok (c : Code) (a : Action) : correct? c a = .ok (correct c a) := by
  rw [correct?, fromByte?_eq_ok (by decide) (by decide), ok_bind]
  cases a with
  | pos q => simp [correct, ok_bind, bmXor?_eq_ok, q.isLt, toByte?_eq_ok]
  | ok | err => exact toByte?_eq_ok (Nat.le_refl 1) _

theorem decodeUnit?_eq_ok (rom : Rom) (c : Code) : decodeUnit? rom c = .ok (decodeUnit rom c) := by
  simp [decodeUnit?, decodeUnit, ok_bind, syndrome?_eq_ok, correct?_eq_ok]

/-- Settles O19: each check compares dimensions, lengths and indices that the units fix, or a 3-bit position. -/
theorem coreUnitsNeverViolateAContract : Obligations.CoreUnitsNeverViolateAContract :=
  ⟨encodeUnit?_eq_ok, syndrome?_eq_ok, correct?_eq_ok, decodeUnit?_eq_ok⟩

end Sys2Proof

namespace Sys2Proof.Machine

/-! ### What stops a step (R92, R93, R98) -/

theorem matmulDefect_eq_none_iff {a b : BitMatrix} : matmulDefect a b = none ↔
    1 ≤ a.rows ∧ 1 ≤ a.cols ∧ 1 ≤ b.rows ∧ 1 ≤ b.cols ∧ a.cols = b.rows := by
  constructor
  · intro h
    by_cases hz : a.rows = 0 ∨ a.cols = 0 ∨ b.rows = 0 ∨ b.cols = 0
    · simp [matmulDefect_eq_zeroDimension hz] at h
    · by_cases hd : a.cols = b.rows
      · omega
      · simp [matmulDefect, hz, hd] at h
  · rintro ⟨har, hac, -, hbc, hd⟩
    exact matmulDefect_eq_none har hac hbc hd

/-- Only a standalone product can have a defect (R55, R93). -/
theorem defect_eq_none_iff {e : HostEvent} :
    e.defect = none ↔ ∀ a b, e = .instr (.gf2Matmul a b) → matmulDefect a b = none := by
  cases e with
  | cycle c => simp [HostEvent.defect]
  | instr i =>
    cases i with
    | gf2Matmul a b => simp [HostEvent.defect, Instr.defect]
    | enc | dec | lut | reserved | encb | decb => simp [HostEvent.defect, Instr.defect]

/-- An instruction without a defect completes, in every state (R92). -/
theorem exec_next_of_wellFormed {i : Instr} (h : i.WellFormed) (s : State) : ∃ t, exec i s = .next t := by
  cases i with
  | gf2Matmul a b =>
    have hd : matmulDefect a b = none := h
    exact ⟨_, by rw [exec_gf2Matmul, matmul?, hd]⟩
  | enc | dec | lut | reserved | encb | decb => exact ⟨_, rfl⟩

/-- A run that elaborates never stops at its next event. -/
theorem step_next_of_elaborates {s : State} (he : s.Elaborates) : ∃ t, step s = .next t := by
  obtain ⟨-, hf⟩ | ⟨i, rest, hs, hf⟩ | ⟨c, rest, -, ⟨-, -, hf⟩ | ⟨-, -, hf⟩ | ⟨-, -, hf⟩⟩ := fetch_cases he <;>
    simp only [step, hf]
  · exact ⟨_, rfl⟩
  · exact exec_next_of_wellFormed (wellFormed_of_elaborates he hs) _
  · exact ⟨_, rfl⟩
  · exact exec_decode_next _ _
  · exact ⟨_, rfl⟩

/-- Settles O47: elaboration looks at every event of the script, and only a standalone product has anything that it can
refuse; what passes it runs. -/
theorem onlyContractViolationsStopAStep : Obligations.OnlyContractViolationsStopAStep := by
  refine fun s => ⟨?_, step_next_of_elaborates, fun _ => step_of_scriptDefect⟩
  simp only [scriptDefect_eq_none, defect_eq_none_iff, ← matmulDefect_eq_none_iff]
  exact ⟨fun h a b hab => h _ hab a b rfl, fun h e he a b hab => h a b (hab ▸ he)⟩

/-! ### What a step adds to the fault record (R96, R114) -/

/-- What an instruction run in the given cycle adds to the fault record. -/
def instrFaults (cycle : Nat) : Instr → List FaultRecord
  | .reserved _ => [{ fault := .illegalOp, cycle }]
  | _ => []

/-- What the reads of a cycle add to the fault record. -/
def readFaults (s : State) (c : HostCycle) : List FaultRecord :=
  if shownIn s c = none then c.reads.map fun f => { fault := .readUnspecified f, cycle := s.cycle } else []

theorem exec_faults {i : Instr} {s t : State} (h : exec i s = .next t) :
    t.faults = s.faults ++ instrFaults s.cycle i := by
  cases i with
  | reserved ignored => cases h; rfl
  | gf2Matmul a b => obtain ⟨p, rfl⟩ := exec_gf2Matmul_next h; exact (List.append_nil _).symm
  | enc | dec | lut | encb | decb => cases h; exact (List.append_nil _).symm

theorem recordReads_faults (c : HostCycle) (s : State) :
    (recordReads c s).faults = s.faults ++ readFaults s c := by
  rw [recordReads, fieldsSpecified_eq_isSome s c.reqValid (respFn s.rom c.req), readFaults, shownIn]
  cases shownWord s (if c.reqValid then some (respFn s.rom c.req) else none) <;> simp

/-- Of the request words, just those with op 11 are a fault (R51, R54). -/
theorem instrFaults_decode (cycle : Nat) (w : ReqWord) :
    instrFaults cycle (decode w) = if reqOp w = 0b11#2 then [{ fault := .illegalOp, cycle }] else [] := by
  obtain h | h | h | h := reqOp_cases w
  · rw [decode_of_op_enc h, h]; rfl
  · rw [decode_of_op_dec h, h]; rfl
  · rw [decode_of_op_lut h, h]; rfl
  · rw [decode_of_op_reserved h, h]; rfl

theorem newFaults_nil {s : State} (hs : s.script = []) : newFaults s = [] := by simp [newFaults, hs]

theorem newFaults_instr {s : State} {i : Instr} {rest : List HostEvent} (hs : s.script = .instr i :: rest) :
    newFaults s = instrFaults s.cycle i := by
  cases i <;> simp [newFaults, hs, instrFaults]

/-- A request presented as a reset edge comes is no transaction: only its reads can be faults (R98). -/
theorem newFaults_reset {s : State} {c : HostCycle} {rest : List HostEvent} (hs : s.script = .cycle c :: rest)
    (hr : s.ResetsIn c) : newFaults s = readFaults s c := by simp [newFaults, hs, hr, readFaults]

theorem newFaults_request {s : State} {c : HostCycle} {rest : List HostEvent} (hs : s.script = .cycle c :: rest)
    (hr : ¬ s.ResetsIn c) (hv : c.reqValid = true) :
    newFaults s = readFaults s c ++ instrFaults s.cycle (decode c.req) := by
  simp only [newFaults, hs, hr, hv, readFaults, instrFaults_decode, not_false_eq_true, true_and, and_true]

theorem newFaults_noRequest {s : State} {c : HostCycle} {rest : List HostEvent} (hs : s.script = .cycle c :: rest)
    (hv : c.reqValid = false) : newFaults s = readFaults s c := by simp [newFaults, hs, hv, readFaults]

/-- A step adds its own faults to the record, at the end. -/
theorem step_faults {s t : State} (h : step s = .next t) : t.faults = s.faults ++ newFaults s := by
  obtain ⟨hs, hf⟩ | ⟨i, rest, hs, hf⟩ | ⟨c, rest, hs, hcycle⟩ := fetch_cases (elaborates_of_step h)
  · rw [step, hf] at h
    cases h
    simp [newFaults_nil hs]
  · rw [step, hf] at h
    rw [exec_faults h, newFaults_instr hs]
  · have hreads : (recordReads c { s with script := rest }).faults = s.faults ++ readFaults s c :=
      recordReads_faults ..
    obtain ⟨hrst, hp, hf⟩ | ⟨hrst, hv, hf⟩ | ⟨-, hv, hf⟩ := hcycle <;> rw [step, hf] at h
    · cases h
      rw [resetCycle_faults, hreads, newFaults_reset hs ⟨hrst, hp⟩]
    · have hr : ¬ s.ResetsIn c := by simpa [or_iff_not_imp_left] using hrst
      rw [exec_faults h, hreads, recordReads_cycle, newFaults_request hs hr hv, List.append_assoc]
    · cases h
      rw [idleCycle_eq_advance, advance_faults, hreads, newFaults_noRequest hs hv]

/-- A state that holds a fault is not final (R96). -/
theorem not_final_of_faults_ne_nil {s : State} (h : s.faults ≠ []) : ¬ s.Final := fun ⟨_, _, hn⟩ => h hn

/-- Settles O46: the reads of the coming cycle are recorded first, then the op of what it runs. -/
theorem faultsAreRecordedInExactlyTwoCases : Obligations.FaultsAreRecordedInExactlyTwoCases := by
  intro s t h
  have hfaults := step_faults h
  exact ⟨hfaults, fun hne => not_final_of_faults_ne_nil (hfaults ▸ hne)⟩

/-! ### No step clears a fault (R96) -/

/-- A run that goes on takes its first step and then the others. -/
theorem run_succ_cases {k : Nat} {s t : State} (h : run (k + 1) s = .next t) :
    ∃ m, step s = .next m ∧ run k m = .next t := by
  rw [run_succ] at h
  split at h
  · next m hm => exact ⟨m, hm, h⟩
  · cases h
  · cases h

theorem faults_prefix_of_run {k : Nat} {s t : State} (h : run k s = .next t) : s.faults <+: t.faults := by
  induction k generalizing s with
  | zero => cases h; exact List.prefix_rfl
  | succ k ih =>
    obtain ⟨m, hm, ht⟩ := run_succ_cases h
    calc s.faults <+: s.faults ++ newFaults s := List.prefix_append ..
      _ = m.faults := (step_faults hm).symm
      _ <+: t.faults := ih ht

/-- Settles O45: each step only adds to the record, and a record that something precedes is not empty. -/
theorem recordedFaultsAreNeverCleared : Obligations.RecordedFaultsAreNeverCleared := by
  intro k s t h
  have hprefix := faults_prefix_of_run h
  exact ⟨hprefix, fun hs => not_final_of_faults_ne_nil (hprefix.ne_nil hs)⟩

end Sys2Proof.Machine
end

section
/-! PROOFS. The clock: what a cycle with and without a reset edge comes to, the answer of each request LATENCY cycles
later, and power-up (spec/70_reset_and_hazards.md). -/

namespace Sys2Proof.Machine

/-! ### One cycle of the script (R107, R108, R111, R112) -/

/-- `F` of the request a cycle presents, for the host to look at; `none` where it presents none (R107, R49). -/
def answerTo (rom : Rom) (c : HostCycle) : Option (RespWord × Dest) :=
  if c.reqValid then some (respFn rom c.req, .plain) else none

/-- A request is one cycle, answered by `F` (R107), once its fault is recorded where it has one. -/
theorem exec_decode (w : ReqWord) (s : State) : exec (decode w) s =
    .next (advance (some (respFn s.rom w, .plain)) { s with faults := s.faults ++ instrFaults s.cycle (decode w) }) := by
  obtain h | h | h | h := reqOp_cases w
  · simp [decode_of_op_enc h, respFn, h, instrFaults]
  · simp [decode_of_op_dec h, respFn, h, instrFaults]
  · simp [decode_of_op_lut h, respFn, h, instrFaults]
  · simp [decode_of_op_reserved h, respFn, h, instrFaults, recordFault]

theorem recordReads_eq (c : HostCycle) (s : State) :
    recordReads c s = { s with faults := s.faults ++ readFaults s c } := by
  obtain ⟨faults, h⟩ := recordReads_eq_faults c s
  have hfaults := recordReads_faults c s
  rw [h] at hfaults ⊢
  rw [← hfaults]

/-- While `rst` = 0 no reset edge comes. -/
theorem not_resetsIn {s : State} {c : HostCycle} (h : c.rst = false) : ¬ s.ResetsIn c := fun hr => by
  simpa [h] using hr.left

/-- The state that a step's operation works on: the event taken off the script, and the step's faults recorded. -/
def State.taken (rest : List HostEvent) (s : State) : State :=
  { s with script := rest, faults := s.faults ++ newFaults s }

/-- A cycle without a reset edge moves the pipeline on by one answer (R111, R112). -/
theorem step_advance {s : State} {c : HostCycle} {rest : List HostEvent} (he : s.Elaborates)
    (hs : s.script = .cycle c :: rest) (hr : ¬ s.ResetsIn c) :
    step s = .next (advance (answerTo s.rom c) (s.taken rest)) := by
  have hreads : readFaults { s with script := rest } c = readFaults s c := rfl
  cases hv : c.reqValid with
  | true =>
    rw [step_request he hs hr hv, exec_decode, recordReads_eq, hreads, State.taken, newFaults_request hs hr hv,
      answerTo, hv, List.append_assoc]
    rfl
  | false =>
    rw [step_noRequest he hs hr hv, recordReads_eq, hreads, State.taken, newFaults_noRequest hs hv, answerTo, hv]
    rfl

/-- A cycle that ends in a reset edge is a reset, whatever it requests (R98, R108). -/
theorem step_reset {s : State} {c : HostCycle} {rest : List HostEvent} (he : s.Elaborates)
    (hs : s.script = .cycle c :: rest) (hr : s.ResetsIn c) : step s = .next (resetCycle (s.taken rest)) := by
  have hd : scriptDefect (.cycle c :: rest) = none := hs ▸ he
  have hreads : readFaults { s with script := rest } c = readFaults s c := rfl
  rw [State.taken, newFaults_reset hs hr, ← hreads, ← recordReads_eq c { s with script := rest }]
  simp [step, fetch, hs, hd, hr]

/-- Settles O37: the step is one cycle, whose answer is `F` of the word. -/
theorem everyRequestIsAnsweredByTheResponseFunction : Obligations.EveryRequestIsAnsweredByTheResponseFunction := by
  constructor
  · intro rom w
    have hop : w.extractLsb' 8 2 = reqOp w := rfl
    have hdata : w.extractLsb' 0 8 = reqData w := rfl
    rw [hop, hdata, ← lowNibble_reqData]
    exact ⟨fun h => by simp [respFn, h], fun h => by simp [respFn, h], fun h => by simp [respFn, h],
      fun h => by simp [respFn, h]⟩
  · intro s w he
    refine ⟨_, (step_present he w).trans (exec_decode w s), fun hp => ?_, fun hp hr => ?_⟩
    · simp [respValid_combinational, shown, shownWord_combinational, hp]
    · simp [nextPipe_of_resetSeen, hr, shiftPipe_of_ne_nil, hp, inputStage]

/-! ### A reset edge (R98, R108) -/

/-- Where two scripts differ in a cycle at their head, they are refused alike; so their steps agree if they do in a run
that elaborates. -/
theorem step_eq_of_elaborates {s : State} {c c' : HostCycle} {rest : List HostEvent} (hs : s.script = .cycle c :: rest)
    (h : s.Elaborates → scriptDefect rest = none → step { s with script := .cycle c' :: rest } = step s) :
    step { s with script := .cycle c' :: rest } = step s := by
  have hdefect : scriptDefect s.script = scriptDefect rest := by rw [hs, scriptDefect_cycle]
  cases hd : scriptDefect rest with
  | none => exact h (hdefect.trans hd) hd
  | some v =>
    rw [step_of_scriptDefect (hdefect.trans hd),
      step_of_scriptDefect (s := { s with script := .cycle c' :: rest }) hd]

/-- With a pipeline, what a cycle shows does not depend on what it requests (R112). -/
theorem shownWord_congr {s : State} (hp : s.pipe ≠ []) (a a' : Option RespWord) : shownWord s a = shownWord s a' := by
  obtain hn | ⟨front, last, hl⟩ := List.eq_nil_or_concat' s.pipe
  · exact absurd hn hp
  · rw [shownWord_pipelined hl, shownWord_pipelined hl]

theorem readFaults_congr {s : State} {c c' : HostCycle} (hp : s.pipe ≠ []) (hreads : c'.reads = c.reads) :
    readFaults s c' = readFaults s c := by
  rw [readFaults, readFaults, shownIn, shownIn, shownWord_congr hp _ _, hreads]

/-- Settles O39: the level of `rst` is looked at only where there is a pipeline; there the step is a reset whatever is
requested, and its reads show what stage L held. -/
theorem resetEdgeClearsThePipeline : Obligations.ResetEdgeClearsThePipeline := by
  intro s c rest hs
  refine ⟨fun hp v => ?_, fun hr => ⟨fun v w => ?_, fun he => ?_⟩⟩
  · have hno : ∀ c', ¬ s.ResetsIn c' := fun c' h => h.right hp
    refine step_eq_of_elaborates hs fun he he' => ?_
    rw [step_cycle he hs (hno c),
      step_cycle (s := { s with script := .cycle { c with rst := v } :: rest }) he' rfl (hno _)]
    rfl
  · refine step_eq_of_elaborates hs fun he he' => ?_
    let s' : State := { s with script := .cycle { c with reqValid := v, req := w } :: rest }
    have hnew : newFaults s' = newFaults s := by
      rw [newFaults_reset hs hr, newFaults_reset (s := s') rfl hr]
      exact readFaults_congr hr.right rfl
    rw [step_reset he hs hr, step_reset (s := s') he' rfl hr, State.taken, State.taken, hnew]
  · have hflight : (resetCycle (s.taken rest)).inFlight = [] := inFlight_of_emptyPipe (resetCycle_pipe _)
    exact ⟨_, step_reset he hs hr, fun _ => emptyPipe_pv, resetCycle_latency _, hflight, rfl, rfl, rfl, rfl⟩

/-! ### LATENCY cycles (R111, R112, R116) -/

/-- What a cycle has between its request and its outputs: the stage that its request makes, and then the pipeline. -/
def State.line (s : State) (c : HostCycle) : List Stage :=
  inputStage (s.cycle + 1) ((answerTo s.rom c).map Prod.fst) :: s.pipe

/-- What a stage shows as the last of its line. -/
def shownStage (st : Stage) : Option Resp := if st.pv then some (Resp.ofWord st.pd) else none

theorem inputStage_pv (edge : Nat) (a : Option RespWord) : (inputStage edge a).pv = a.isSome := by cases a <;> rfl

theorem shownStage_inputStage (edge : Nat) (a : Option RespWord) :
    shownStage (inputStage edge a) = a.map Resp.ofWord := by cases a <;> rfl

/-- With a pipeline or without, a cycle shows the last stage of its line (R111, R112). -/
theorem advance_shows_last {s : State} {c : HostCycle} {front : List Stage} {st : Stage} (hr : s.resetSeen = true)
    (hline : s.line c = front ++ [st]) :
    (advance (answerTo s.rom c) s).respValid = st.pv ∧ (advance (answerTo s.rom c) s).outputs = shownStage st := by
  obtain hp | ⟨front', last, hp⟩ := List.eq_nil_or_concat' s.pipe
  · obtain rfl : inputStage (s.cycle + 1) ((answerTo s.rom c).map Prod.fst) = st := by
      rw [State.line, hp] at hline
      exact List.head_eq_of_cons_eq (List.append_inj' (s₁ := []) hline rfl).right
    rw [inputStage_pv, shownStage_inputStage]
    simp [respValid_combinational hp, shown, shownWord_combinational hp]
  · obtain rfl : last = st := by
      rw [State.line, hp, ← List.cons_append] at hline
      exact List.head_eq_of_cons_eq (List.append_inj' hline rfl).right
    simp [respValid_pipelined hp, shown, shownWord_pipelined hp, hr, shownStage]

/-- After a reset edge, a cycle moves each stage of its line one place on. -/
theorem advance_pipe_eq_dropLast {s : State} (c : HostCycle) (hr : s.resetSeen = true) :
    (advance (answerTo s.rom c) s).pipe = (s.line c).dropLast := nextPipe_of_resetSeen hr _

/-- A stage shows after as many further cycles as there are stages behind it, whatever they request. -/
theorem run_shows_stage {s : State} {c : HostCycle} {later : List HostCycle} {rest : List HostEvent}
    {front back : List Stage} {st : Stage} (hr : s.resetSeen = true) (hrst : ∀ c' ∈ c :: later, c'.rst = false)
    (he : s.Elaborates) (hs : s.script = (c :: later).map .cycle ++ rest) (hline : s.line c = front ++ st :: back)
    (hlen : later.length = back.length) :
    ∃ t, run (later.length + 1) s = .next t ∧ t.script = rest ∧ t.respValid = st.pv ∧ t.outputs = shownStage st := by
  induction later generalizing s c front back with
  | nil =>
    obtain rfl : back = [] := List.eq_nil_of_length_eq_zero hlen.symm
    have hno : ¬ s.ResetsIn c := not_resetsIn (hrst c List.mem_cons_self)
    obtain ⟨hvalid, houtputs⟩ := advance_shows_last (s := s.taken rest) hr hline
    exact ⟨_, by rw [run_succ, step_advance he hs hno]; rfl, rfl, hvalid, houtputs⟩
  | cons c' later ih =>
    obtain rfl | ⟨back, last, rfl⟩ := List.eq_nil_or_concat' back
    · cases hlen
    have hno : ¬ s.ResetsIn c := not_resetsIn (hrst c List.mem_cons_self)
    have he' : scriptDefect ((c' :: later).map .cycle ++ rest) = none := by
      rw [State.Elaborates, hs, scriptDefect_cycles] at he
      rw [scriptDefect_cycles, he]
    let m := advance (answerTo s.rom c) (s.taken ((c' :: later).map .cycle ++ rest))
    have hpipe : m.pipe = front ++ st :: back := by
      have hdrop : m.pipe = (s.line c).dropLast := advance_pipe_eq_dropLast (s := s.taken _) c hr
      rw [hdrop, hline, ← List.cons_append, ← List.append_assoc, List.dropLast_concat]
    have hline' : m.line c' = (inputStage (m.cycle + 1) ((answerTo m.rom c').map Prod.fst) :: front) ++ st :: back := by
      rw [State.line, hpipe, List.cons_append]
    rw [run_succ, step_advance he hs hno]
    exact ih (s := m) hr (List.forall_mem_cons.mp hrst).right he' rfl hline' (by simpa using hlen)

/-- Settles O48: a request makes the first stage of its cycle's line, with the LATENCY stages of the pipeline behind. -/
theorem responseShowsExactlyLatencyCyclesLater : Obligations.ResponseShowsExactlyLatencyCyclesLater := by
  intro s first later rest hr hrst hlen he hs
  obtain ⟨t, ht, hscript, hvalid, houtputs⟩ := run_shows_stage hr hrst he hs (List.nil_append _).symm hlen
  refine ⟨t, hlen ▸ ht, hscript, ?_, ?_⟩
  · rw [hvalid, inputStage_pv, answerTo]
    cases first.reqValid <;> rfl
  · rw [houtputs, shownStage_inputStage, answerTo]
    cases first.reqValid <;> rfl

/-- What is shown LATENCY cycles after a request, in any run that gets there. -/
theorem outputs_eq_of_run {s t : State} {first : HostCycle} {later : List HostCycle} {rest : List HostEvent}
    (hr : s.resetSeen = true) (hrst : ∀ c ∈ first :: later, c.rst = false) (hlen : later.length = s.latency)
    (hs : s.script = (first :: later).map .cycle ++ rest) (h : run (s.latency + 1) s = .next t) :
    t.outputs = if first.reqValid then some (Resp.ofWord (respFn s.rom first.req)) else none := by
  obtain ⟨m, hm, -⟩ := run_succ_cases h
  obtain ⟨t', ht', -, -, houtputs⟩ :=
    responseShowsExactlyLatencyCyclesLater s first later rest hr hrst hlen (elaborates_of_step hm) hs
  rw [h] at ht'
  cases ht'
  exact houtputs

/-- Settles O50: both show `F` of the request, and `F` is of the constants and the request alone. -/
theorem responseDependsOnItsOwnRequestOnly : Obligations.ResponseDependsOnItsOwnRequestOnly := by
  intro s s' t t' first first' later later' rest rest' hrom _ hr hr' hrst hrst' hlen hlen' hreq hvalid hs hs' ht ht'
  rw [outputs_eq_of_run hr hrst hlen hs ht, outputs_eq_of_run hr' hrst' hlen' hs' ht', hrom, hreq, hvalid]

/-! ### Power-up (R109, R110, R114) -/

section Unreset
variable {s : State} {c : HostCycle} {rest : List HostEvent} {front front' : List Stage} {last last' : Stage}
  (hp : s.pipe = front ++ [last]) (hr : s.resetSeen = false)

include hp hr

/-- Before the first reset edge nothing is shown, so every read is a fault. -/
theorem readFaults_of_not_resetSeen (c : HostCycle) :
    readFaults s c = c.reads.map fun f => { fault := .readUnspecified f, cycle := s.cycle } := by
  have hn : s.pipe ≠ [] := by simp [hp]
  rw [readFaults, shownIn, shownWord_of_not_resetSeen hn hr, if_pos rfl]

/-- Before the first reset edge a cycle shows `pv[L]` and no response, and the host takes none. -/
theorem advance_of_not_resetSeen (a : Option (RespWord × Dest)) : advance a s =
    { s with
      pipe := unspecifiedPipe (s.cycle + 1) s.pipe.length
      respValid := last.pv
      outputs := none
      host := s.host.expect (a.map Prod.snd)
      cycle := s.cycle + 1 } := by
  simp [advance, nextPipe_of_not_resetSeen hr, respValid_pipelined hp, shown, shownWord_pipelined hp, hr]

/-- So does the cycle that ends in the first reset edge. -/
theorem resetCycle_of_not_resetSeen : resetCycle s =
    { s with
      pipe := emptyPipe (s.cycle + 1) s.pipe.length
      resetSeen := true
      respValid := last.pv
      outputs := none
      host := { s.host with awaiting := [] }
      cycle := s.cycle + 1 } := by
  simp [resetCycle, respValid_pipelined hp, shown, shownWord_pipelined hp, hr]

/-- What the stages hold before the first reset edge does not matter to the faults. -/
theorem newFaults_of_not_resetSeen (hs : s.script = .cycle c :: rest) :
    newFaults { s with pipe := front' ++ [last'] } = newFaults s := by
  have hn : s.pipe ≠ [] := by simp [hp]
  let s' : State := { s with pipe := front' ++ [last'] }
  have hn' : s'.pipe ≠ [] := by simp [s']
  have hreads : readFaults s' c = readFaults s c := by
    rw [readFaults_of_not_resetSeen hp hr, readFaults_of_not_resetSeen (s := s') rfl hr]
  cases hrst : c.rst with
  | true => rw [newFaults_reset hs ⟨hrst, hn⟩, newFaults_reset (s := s') hs ⟨hrst, hn'⟩, hreads]
  | false =>
    cases hv : c.reqValid with
    | true =>
      rw [newFaults_request hs (not_resetsIn hrst) hv, newFaults_request (s := s') hs (not_resetsIn hrst) hv, hreads]
    | false => rw [newFaults_noRequest hs hv, newFaults_noRequest (s := s') hs hv, hreads]

/-- A cycle before the first reset edge comes to one state whatever the stages hold, but for the level of
`resp_valid`, which is `pv[L]`. -/
theorem step_of_not_resetSeen (he : s.Elaborates) (hs : s.script = .cycle c :: rest) :
    ∃ u : State, u.outputs = none ∧ u.host.received = s.host.received ∧ u.faults = s.faults ++ newFaults s ∧
      ∀ (front' : List Stage) (last' : Stage), front'.length = front.length →
        step { s with pipe := front' ++ [last'] } = .next { u with respValid := last'.pv } := by
  have hnew : ∀ {front' last'}, newFaults { s with pipe := front' ++ [last'] } = newFaults s :=
    newFaults_of_not_resetSeen hp hr hs
  cases hrst : c.rst with
  | true =>
    refine ⟨resetCycle (s.taken rest), ?_⟩
    rw [resetCycle_of_not_resetSeen (s := s.taken rest) hp hr]
    refine ⟨rfl, rfl, rfl, fun front' last' hlen => ?_⟩
    let s' : State := { s with pipe := front' ++ [last'] }
    rw [step_reset (s := s') he hs ⟨hrst, by simp [s']⟩, resetCycle_of_not_resetSeen (s := s'.taken rest) rfl hr]
    simp [s', State.taken, hnew, hp, hlen]
  | false =>
    refine ⟨advance (answerTo s.rom c) (s.taken rest), ?_⟩
    rw [advance_of_not_resetSeen (s := s.taken rest) hp hr]
    refine ⟨rfl, rfl, rfl, fun front' last' hlen => ?_⟩
    let s' : State := { s with pipe := front' ++ [last'] }
    rw [step_advance (s := s') he hs (not_resetsIn hrst), advance_of_not_resetSeen (s := s'.taken rest) rfl hr]
    simp [s', State.taken, hnew, hp, hlen]

end Unreset

theorem readFaults_prefix_newFaults {s : State} {c : HostCycle} {rest : List HostEvent}
    (hs : s.script = .cycle c :: rest) : readFaults s c <+: newFaults s := by
  simp [newFaults, hs, readFaults]

/-- Settles O40: the first reset edge makes the pipeline one just reset; before it a cycle shows no response. -/
theorem powerUpNeedsOneResetEdge : Obligations.PowerUpNeedsOneResetEdge := by
  refine ⟨fun latency c rest hl hrst hreads he => ?_, ⟨rfl, rfl, rfl⟩, fun _ => rfl,
    fun s c rest front last hp hr he hs => ?_⟩
  · let s : State := { State.powerUp latency with script := .cycle c :: rest }
    have hlatency : s.latency = latency := unspecifiedPipe_length 0 latency
    have hresets : s.ResetsIn c := ⟨hrst, fun hp => hl (by rw [← hlatency, State.latency, hp, List.length_nil])⟩
    have hnew : newFaults s = [] := by
      rw [newFaults_reset rfl hresets, readFaults, hreads, List.map_nil, ite_self]
    exact ⟨_, step_reset (s := s) he rfl hresets, inv_resetCycle rfl, hnew, (resetCycle_latency _).trans hlatency,
      congrArg HostSide.received (take_unexpected rfl _)⟩
  · obtain ⟨u, houtputs, hreceived, hfaults, hstep⟩ := step_of_not_resetSeen hp hr he hs
    refine ⟨{ u with respValid := last.pv }, ?_, rfl, houtputs, hreceived, ?_, hstep⟩
    · rw [← hstep front last rfl, ← hp]
    · rw [← readFaults_of_not_resetSeen hp hr, hfaults]
      exact (List.prefix_append_right_inj _).mpr (readFaults_prefix_newFaults hs)

end Sys2Proof.Machine
end
